-- ==== Sys2Proof/Config.lean ====
section
/-! DEFINITION. The implementation parameters of 00_scope.md R5 that no rule fixes.
Each is a constant without a body, so no proof can see a value (logs 10 and 11).
`N` is no parameter here: it is the register MSIZE of the state. -/

namespace Sys2Proof.Config

/-- `MEM_CAPACITY` less one: R5 gives `MEM_CAPACITY >= N` and R13 gives `N >= 1`. -/
opaque memCapacityLessOne : Nat

/-- `MEM_CAPACITY`, the number of physical cells (00_scope.md R5). -/
def memCapacity : Nat := memCapacityLessOne + 1

/-- `INSP_ARITY_DIV` (R5): the operand count the inspection port reports for opcode 50, in 0..3. -/
opaque inspArityDiv : Fin 4

/-- `INSP_ARITY_JGE` (R5): the operand count the inspection port reports for opcode 60, in 0..3. -/
opaque inspArityJge : Fin 4

end Sys2Proof.Config
end

