-- ==== Sys2Proof/Word.lean ====
section
/-! DEFINITION. The word type and the addressing mode. -/

namespace Sys2Proof

/-- The 64-bit pattern of an `Int64` (00_scope.md R6): a memory cell, a stream value, an address.
`BitVec.toInt` is its value as an `Int64`, `BitVec.toNat` as a `UInt64`. -/
abbrev Word := BitVec 64

/-- The addressing mode that the mode digit of a read operand selects (30_encoding.md R49).
A digit 2..9 selects none: `undefined` keeps it, because InvalidMode reports it (R53). -/
inductive Mode where
  | position
  | immediate
  | undefined (digit : Nat)
deriving DecidableEq, Repr

end Sys2Proof
end

