-- ==== Sys2Proof/Syntax.lean ====
section
/-! DEFINITION. The instructions: one constructor for each row of spec/opcode_table.json. -/

namespace Sys2Proof

/-- A decoded instruction word (30_encoding.md R46, R47): the opcode, and the modes that the executor
consults (R50). The operand words are no part of it: the executor fetches them one by one from
`M[ip+1..]`, each under its own check (R44, R54, R58). -/
inductive Instr where
  /-- ADD (1), 41_arithmetic.md R76, with the modes of its two read operands. -/
  | add (m1 m2 : Mode)
  /-- MUL (2), 41_arithmetic.md R77, with the modes of its two read operands. -/
  | mul (m1 m2 : Mode)
  /-- IN (3), 42_io.md R81: its one operand is a write operand, so it consults no mode. -/
  | inp
  /-- OUT (4), 42_io.md R84, with the mode of its read operand. -/
  | out (m1 : Mode)
  /-- HALT (99), 40_cycle_and_control.md R70. -/
  | halt
  /-- DIV (50), reserved, 43_reserved_and_invalid.md R88. -/
  | div
  /-- JGE (60), reserved, 43_reserved_and_invalid.md R89. -/
  | jge
  /-- Every other opcode value, 43_reserved_and_invalid.md R90; `opc` is `rem(w, 100)`. -/
  | invalid (opc : Int)
deriving DecidableEq, Repr

end Sys2Proof
end

