-- ==== Sys2Proof/WellFormed.lean ====
section
/-! DEFINITION. Which instruction terms stand for an instruction word. -/

namespace Sys2Proof

/-- A mode digit is one decimal digit, and 0 and 1 are the defined ones (30_encoding.md R45, R49). -/
def Mode.wf : Mode → Bool
  | .position => true
  | .immediate => true
  | .undefined d => decide (2 ≤ d ∧ d ≤ 9)

/-- The opcode values that have a row of their own (30_encoding.md R47). -/
def namedOpcodes : List Int := [1, 2, 3, 4, 50, 60, 99]

/-- An instruction term some instruction word decodes to: mode digits are digits, and an INVALID
opcode is a remainder of 100 without a row of its own (43_reserved_and_invalid.md R90). -/
def Instr.wf : Instr → Bool
  | .add m1 m2 => m1.wf && m2.wf
  | .mul m1 m2 => m1.wf && m2.wf
  | .inp => true
  | .out m1 => m1.wf
  | .halt => true
  | .div => true
  | .jge => true
  | .invalid opc => decide (-99 ≤ opc ∧ opc ≤ 99) && !namedOpcodes.contains opc

end Sys2Proof
end

