-- ==== Sys2Proof/Decode.lean ====
section
/-! DEFINITION. The decoder (30_encoding.md R45 to R52), total on every word, then the encoder (R63).
No word is rejected: an opcode outside the table's rows decodes to the row INVALID. -/

namespace Sys2Proof

/-- Integer division rounded toward zero (00_scope.md R6). -/
def quot (a b : Int) : Int := Int.tdiv a b

/-- The remainder with the sign of `a` (00_scope.md R6). -/
def rem (a b : Int) : Int := Int.tmod a b

/-- The decimal digit of weight `10^j` (00_scope.md R6), used for `w >= 0` only. -/
def digit (j : Nat) (w : Int) : Int := rem (quot w (10 ^ j)) 10

/-- `wrap64` of 00_scope.md R6, as a bit pattern: the `Int64` congruent to `x` modulo 2^64. -/
def wrap64 (x : Int) : Word := BitVec.ofInt 64 x

/-- What `Decode` returns (30_encoding.md R46). -/
structure Fields where
  opc : Int
  m1 : Nat
  m2 : Nat
  m3 : Nat
deriving DecidableEq, Repr

/-- `Decode(w)` of 30_encoding.md R46. -/
def decodeFields (w : Word) : Fields :=
  if 0 ≤ w.toInt then
    { opc := rem w.toInt 100
      m1 := (digit 2 w.toInt).toNat
      m2 := (digit 3 w.toInt).toNat
      m3 := (digit 4 w.toInt).toNat }
  else
    { opc := rem w.toInt 100, m1 := 0, m2 := 0, m3 := 0 }

/-- The mode a mode digit selects (30_encoding.md R49, R53). -/
def Mode.ofDigit (d : Nat) : Mode :=
  if d = 0 then .position else if d = 1 then .immediate else .undefined d

/-- The mode digit of a mode (30_encoding.md R49). -/
def Mode.digit : Mode → Nat
  | .position => 0
  | .immediate => 1
  | .undefined d => d

/-- The instruction that decoded fields select (30_encoding.md R47, R48), with the consulted digits
of R50: the digit of a write operand or of an absent operand is dropped (R51, R52). -/
def Fields.instr (f : Fields) : Instr :=
  if f.opc = 1 then .add (Mode.ofDigit f.m1) (Mode.ofDigit f.m2)
  else if f.opc = 2 then .mul (Mode.ofDigit f.m1) (Mode.ofDigit f.m2)
  else if f.opc = 3 then .inp
  else if f.opc = 4 then .out (Mode.ofDigit f.m1)
  else if f.opc = 99 then .halt
  else if f.opc = 50 then .div
  else if f.opc = 60 then .jge
  else .invalid f.opc

/-- The instruction an instruction word stands for. -/
def decode (w : Word) : Instr := (decodeFields w).instr

/-- The opcode of an instruction (30_encoding.md R47). -/
def Instr.opcode : Instr → Int
  | .add _ _ => 1
  | .mul _ _ => 2
  | .inp => 3
  | .out _ => 4
  | .halt => 99
  | .div => 50
  | .jge => 60
  | .invalid opc => opc

/-- Whether the opcode is in `VALID = {1, 2, 3, 4, 99}` (30_encoding.md R48). -/
def Instr.valid : Instr → Bool
  | .add _ _ => true
  | .mul _ _ => true
  | .inp => true
  | .out _ => true
  | .halt => true
  | .div => false
  | .jge => false
  | .invalid _ => false

/-- The operand roles of 30_encoding.md R47. -/
inductive Role where
  | read
  | write
deriving DecidableEq, Repr

/-- One operand of an instruction: its role (R47) and, for a read operand, the mode of its digit.
A write operand's mode is never consulted (R51). -/
structure Slot where
  role : Role
  mode : Mode
deriving DecidableEq, Repr

/-- `role(opc, k)` for `k = 1, 2, ...`, with the modes (30_encoding.md R47). -/
def Instr.slots : Instr → List Slot
  | .add m1 m2 => [⟨.read, m1⟩, ⟨.read, m2⟩, ⟨.write, .position⟩]
  | .mul m1 m2 => [⟨.read, m1⟩, ⟨.read, m2⟩, ⟨.write, .position⟩]
  | .inp => [⟨.write, .position⟩]
  | .out m1 => [⟨.read, m1⟩]
  | .halt => []
  | .div => []
  | .jge => []
  | .invalid _ => []

/-- `arity(opc)` (30_encoding.md R47): defined for the five executable opcodes only. -/
def Instr.arity : Instr → Option Nat
  | .add _ _ => some 3
  | .mul _ _ => some 3
  | .inp => some 1
  | .out _ => some 1
  | .halt => some 0
  | .div => none
  | .jge => none
  | .invalid _ => none

/-- Mode digits `m1` and `m2` of the canonical instruction word (30_encoding.md R63). -/
def Instr.modeDigits : Instr → Nat × Nat
  | .add m1 m2 => (m1.digit, m2.digit)
  | .mul m1 m2 => (m1.digit, m2.digit)
  | .inp => (0, 0)
  | .out m1 => (m1.digit, 0)
  | .halt => (0, 0)
  | .div => (0, 0)
  | .jge => (0, 0)
  | .invalid _ => (0, 0)

/-- The canonical instruction word (30_encoding.md R63): `opc + 100 * m1 + 1000 * m2`, the digit of a
write operand or of an absent operand being 0. -/
def encode (i : Instr) : Word :=
  wrap64 (i.opcode + 100 * i.modeDigits.1 + 1000 * i.modeDigits.2)

/-- Cell `j` of an instruction whose `nbits` bits are `w`, numbered as spec/opcode_table.json does:
cells of 64 bits, the first in the lowest bits, every bit from `nbits` up being 0 (log 14). -/
def tableCell (nbits w j : Nat) : Word := BitVec.ofNat 64 (w % 2 ^ nbits / 2 ^ (64 * j))

/-- The instruction the decoder reads from those bits: the instruction word is the first cell. -/
def decodeTableWord (nbits w : Nat) : Option Instr := some (decode (tableCell nbits w 0))

end Sys2Proof
end

