-- ==== Sys2Proof/Machine/State.lean ====
section
/-! DEFINITION. The state of the machine, whole (10_state.md R12), as plain data; the reasons a step
can stop; and the state after reset (R27). -/

namespace Sys2Proof.Machine

/-- The memory: cells of 64 bits under their index (20_memory.md R28), in one canonical form, the
indexes strictly rising. A cell that is not listed is one nobody loaded: it has no value
(70_reset_and_hazards.md R110; logs 1 and 2). -/
abbrev Memory := List (Nat × Word)

/-- STATUS (10_state.md R15). `reserved` is the value 11, which the core never produces. -/
inductive Status where
  | running
  | halted
  | faulted
  | reserved
deriving DecidableEq, Repr

/-- FAULT_CODE (10_state.md R17). -/
inductive FaultCode where
  | noFault
  | badAddress
  | invalidOpcode
  | invalidMode
deriving DecidableEq, Repr

/-- WAIT (10_state.md R21): not waiting, an IN waiting for a value, an OUT waiting to be accepted. -/
inductive Wait where
  | idle
  | input
  | output
deriving DecidableEq, Repr

/-- The levels the host drives on the block's input ports at one step (10_state.md R24, R25, R26).
`clk` has no level here: a step of the model is one rising edge that matters (log 6). -/
structure Pins where
  rst : Bool
  ldWe : Bool
  ldAddr : Word
  ldData : Word
  ldSizeWe : Bool
  ldSize : Word
  rdAddr : Word
  inValid : Bool
  inData : Word
  outReady : Bool
  inspAddr : Word
deriving DecidableEq, Repr

/-- A host that drives nothing: no reset, no load, no input offered, no output accepted (log 5). -/
def Pins.quiet : Pins :=
  { rst := false, ldWe := false, ldAddr := 0, ldData := 0, ldSizeWe := false, ldSize := 0
    rdAddr := 0, inValid := false, inData := 0, outReady := false, inspAddr := 0 }

/-- The machine's state. The first eleven fields are 10_state.md R12's list; `inReset` and `host` are
the model's own (logs 8 and 5). -/
structure State where
  /-- `M` (R13). -/
  mem : Memory
  /-- `N`, in the register MSIZE (R13). -/
  msize : Word
  /-- The instruction pointer, unsigned (R14). -/
  ip : Word
  /-- STATUS (R15). -/
  status : Status
  /-- HALT_KIND (R16): true is 1, boundary termination. -/
  haltKind : Bool
  /-- FAULT_CODE (R17). -/
  faultCode : FaultCode
  /-- FAULT_PC (R18). -/
  faultPc : Word
  /-- FAULT_VALUE (R19), an Int64. -/
  faultValue : Word
  /-- WAIT (R21). -/
  wait : Wait
  /-- `inputs_taken` (R22), oldest first. -/
  inputsTaken : List Word
  /-- `outputs` (R22), oldest first. -/
  outputs : List Word
  /-- The model's own: the last edge had `rst = 1` (70_reset_and_hazards.md R107; log 8). -/
  inReset : Bool
  /-- The model's own: what the host drives at the coming steps, the next step first; past its end
  the host drives `Pins.quiet` (log 5). -/
  host : List Pins
deriving DecidableEq, Repr

/-- A stuck machine. -/
inductive Fault where
  /-- Raised by the sequencer in a state with STATUS = 11, which "a model treats as unreachable"
  (10_state.md R15) and as stuck (93_implementation_defined.md #14). Safe: the machine stops (log 9). -/
  | stuckStatus
deriving DecidableEq, Repr

/-- Why a step has no meaning. -/
inductive Refusal where
  /-- Raised by `exec` alone, for an instruction without a meaning yet. Safe. No arm raises it. -/
  | notModelled (mnemonic : String)
  /-- Raised by every read of a cell below N that nobody loaded or wrote: "a read of an unloaded cell
  has no meaning" (70_reset_and_hazards.md R110). Safe: the machine stops (log 2). -/
  | unloadedCell (address : Nat)
  /-- Raised when a run begins, or goes on, with an MSIZE outside the bounds a load may give it: "If
  `MSIZE` was never loaded ... A model refuses it" (R110). Safe: the machine stops (logs 3, 10). -/
  | sizeNotLoaded
deriving DecidableEq, Repr

/-- The state right after reset (10_state.md R27) of a block nobody has loaded: no cell has a value,
MSIZE is 0, which no load may give it (log 3), and the host drives nothing (log 5). -/
def State.reset : State :=
  { mem := []
    msize := 0
    ip := 0
    status := .running
    haltKind := false
    faultCode := .noFault
    faultPc := 0
    faultValue := 0
    wait := .idle
    inputsTaken := []
    outputs := []
    inReset := false
    host := [] }

end Sys2Proof.Machine
end

