-- ==== Sys2Proof/Machine/Ops.lean ====
section
/-! DEFINITION. The named operations over memory and registers, fault entry (60_exceptions.md R93),
and what ends an operation early. There is no return from a fault (R97): only reset leaves Faulted
(Machine/Reset.lean). -/

namespace Sys2Proof.Machine

/-! ### Memory (20_memory.md R28, R31; 00_scope.md R7) -/

/-- The value of cell `a`, none if nobody loaded or wrote it. -/
def Memory.read : Memory → Nat → Option Word
  | [], _ => none
  | (b, v) :: m, a => if a = b then some v else Memory.read m a

/-- `M` with `v` in cell `a`, the canonical form kept. -/
def Memory.write : Memory → Nat → Word → Memory
  | [], a, v => [(a, v)]
  | (b, u) :: m, a, v =>
    if a < b then (a, v) :: (b, u) :: m
    else if a = b then (a, v) :: m
    else (b, u) :: Memory.write m a v

/-- Every listed index is at least `lo`, and they rise strictly. -/
def Memory.risingFrom : Nat → Memory → Bool
  | _, [] => true
  | lo, (b, _) :: m => decide (lo ≤ b) && Memory.risingFrom (b + 1) m

/-- The canonical form: strictly rising indexes. An unlisted cell has no value, so no listed entry
can equal what an unlisted cell reads as. -/
def Memory.wf (m : Memory) : Bool := Memory.risingFrom 0 m

/-- `v`, `v'`, ... in the cells from `a` up. -/
def Memory.writeAll : Memory → Nat → List Word → Memory
  | m, _, [] => m
  | m, a, v :: vs => Memory.writeAll (m.write a v) (a + 1) vs

/-! ### The ends of an operation -/

/-- What resolving an operand can give: a value, a fault of the core (R92), or no meaning. -/
inductive Resolved (α : Type) where
  | ok (a : α)
  | trap (code : FaultCode) (value : Word)
  | refuse (why : Refusal)
deriving DecidableEq, Repr

/-- The next statement runs only after a value: `raise` ends the instruction at once (00_scope.md R7). -/
def Resolved.bind {α β : Type} (r : Resolved α) (f : α → Resolved β) : Resolved β :=
  match r with
  | .ok a => f a
  | .trap c v => .trap c v
  | .refuse w => .refuse w

/-! ### State -/

/-- What the host drives at this step (log 5). -/
def State.pins (s : State) : Pins :=
  match s.host with
  | [] => Pins.quiet
  | p :: _ => p

/-- The host goes on to what it drives at the next step (log 5). -/
def State.popHost (s : State) : State := { s with host := s.host.tail }

/-- `valid(v)`: `0 <= v < N`, `v` read as an Int64 (20_memory.md R29). -/
def State.valid (s : State) (v : Word) : Bool := decide (0 ≤ v.toInt ∧ v.toInt < s.msize.toNat)

/-- A size that a load may give MSIZE, but for the block's capacity: `1 <= N <= 2^63 - 1`
(10_state.md R13, R24). -/
def State.sizeLegal (s : State) : Bool := decide (1 ≤ s.msize.toNat ∧ s.msize.toNat < 2 ^ 63)

/-- `MemRead(a, 1)` (00_scope.md R7): a cell nobody loaded has no value (70_reset_and_hazards.md R110). -/
def State.cell (s : State) (a : Nat) : Resolved Word :=
  match s.mem.read a with
  | some v => .ok v
  | none => .refuse (.unloadedCell a)

/-- `MemWrite(a, 1, v)` (00_scope.md R7). -/
def State.store (s : State) (a : Nat) (v : Word) : State := { s with mem := s.mem.write a v }

/-- `ip <- ip + n` (40_cycle_and_control.md R67). -/
def State.advance (s : State) (n : Nat) : State := { s with ip := s.ip + BitVec.ofNat 64 n }

/-- Fault entry, `raise Fault(c, v)` of a step that began at `ip` (60_exceptions.md R93). -/
def State.takeFault (s : State) (c : FaultCode) (v : Word) : State :=
  { s with status := .faulted, faultCode := c, faultPc := s.ip, faultValue := v, wait := .idle }

/-- The end of a run: STATUS Halted, with HALT_KIND (40_cycle_and_control.md R70, R71). -/
def State.halt (s : State) (boundary : Bool) : State :=
  { s with status := .halted, haltKind := boundary }

/-- Cells from `a` up, and a size that takes them in: how a program stands in memory once a host has
loaded it (log 4). A size already legal and large enough is kept. -/
def State.placeCells (s : State) (a : Nat) (vs : List Word) : State :=
  { s with
    mem := s.mem.writeAll a vs
    msize :=
      if s.msize.toNat < a + vs.length ∨ 2 ^ 63 ≤ s.msize.toNat then BitVec.ofNat 64 (a + vs.length)
      else s.msize }

/-- The rest of an instruction after its operands are resolved: it runs on a value, a trap enters the
fault (R93), and what has no meaning is refused. -/
def Resolved.run {α : Type} (r : Resolved α) (s : State)
    (k : α → Host.Outcome State Fault Refusal) : Host.Outcome State Fault Refusal :=
  match r with
  | .ok a => k a
  | .trap c v => .next (s.takeFault c v)
  | .refuse w => .refused w

/-- `f` after an outcome that is a next state. -/
def mapNext (f : State → State) (o : Host.Outcome State Fault Refusal) :
    Host.Outcome State Fault Refusal :=
  match o with
  | .next s => .next (f s)
  | .fault r => .fault r
  | .refused r => .refused r

end Sys2Proof.Machine
end

