-- ==== Sys2Proof/Machine/Flags.lean ====
section
/-! DEFINITION. The machine has no flags or condition codes (10_state.md R10) and ADD and MUL compute
none (41_arithmetic.md R75). This file holds the ALU's two results and the bit values that the status
and fault registers show (10_state.md R15, R16, R17, R21). -/

namespace Sys2Proof.Machine

/-- Add (41_arithmetic.md R75): the exact sum, wrapped. -/
def aluAdd (a b : Word) : Word := wrap64 (a.toInt + b.toInt)

/-- Multiply (41_arithmetic.md R75): the exact product, wrapped. -/
def aluMul (a b : Word) : Word := wrap64 (a.toInt * b.toInt)

/-- `STATUS[1:0]` (10_state.md R15). -/
def Status.bits : Status → BitVec 2
  | .running => 0b00#2
  | .halted => 0b01#2
  | .faulted => 0b10#2
  | .reserved => 0b11#2

/-- `HALT_KIND[0]` (10_state.md R16). -/
def haltKindBits (k : Bool) : BitVec 1 := BitVec.ofBool k

/-- `FAULT_CODE[1:0]` (10_state.md R17). -/
def FaultCode.bits : FaultCode → BitVec 2
  | .noFault => 0b00#2
  | .badAddress => 0b01#2
  | .invalidOpcode => 0b10#2
  | .invalidMode => 0b11#2

/-- `WAIT[1:0]` (10_state.md R21). -/
def Wait.bits : Wait → BitVec 2
  | .idle => 0b00#2
  | .input => 0b01#2
  | .output => 0b10#2

end Sys2Proof.Machine
end

