-- ==== Sys2Proof/Machine/Operands.lean ====
section
/-! DEFINITION. The operand-resolution unit (30_encoding.md R53 to R58), every operand form. -/

namespace Sys2Proof.Machine

/-- Operand word `k`, at `ip + k`, with its bound (30_encoding.md R54). -/
def State.operandWord (s : State) (k : Nat) : Resolved Word :=
  if s.ip.toNat + k < s.msize.toNat then s.cell (s.ip.toNat + k)
  else .trap .badAddress (BitVec.ofNat 64 (s.ip.toNat + k))

/-- A position-mode read of the address `raw` (30_encoding.md R55). -/
def State.dereference (s : State) (raw : Word) : Resolved Word :=
  if s.valid raw then s.cell raw.toNat else .trap .badAddress raw

/-- `val_k` of a read operand (30_encoding.md R55, R56). The mode pass of R58 comes before it, so the
third arm is the fault of R53 again. -/
def State.readOperand (s : State) (k : Nat) (m : Mode) : Resolved Word :=
  (s.operandWord k).bind fun raw =>
    match m with
    | .position => s.dereference raw
    | .immediate => .ok raw
    | .undefined d => .trap .invalidMode (BitVec.ofNat 64 d)

/-- `dest` of a write operand (30_encoding.md R57), as a cell index: no mode plays a part (R51). -/
def State.writeOperand (s : State) (k : Nat) : Resolved Nat :=
  (s.operandWord k).bind fun raw =>
    if s.valid raw then .ok raw.toNat else .trap .badAddress raw

/-- The mode pass for one read operand (30_encoding.md R53, R58). -/
def checkMode (m : Mode) : Resolved Unit :=
  match m with
  | .position => .ok ()
  | .immediate => .ok ()
  | .undefined d => .trap .invalidMode (BitVec.ofNat 64 d)

/-- `ResolveOperands` for ADD and MUL (30_encoding.md R58): `val_1`, `val_2` and `dest`. -/
def State.resolveBinary (s : State) (m1 m2 : Mode) : Resolved (Word × Word × Nat) :=
  (checkMode m1).bind fun _ =>
  (checkMode m2).bind fun _ =>
  (s.readOperand 1 m1).bind fun v1 =>
  (s.readOperand 2 m2).bind fun v2 =>
  (s.writeOperand 3).bind fun d =>
  .ok (v1, v2, d)

/-- `ResolveOperands` for OUT (30_encoding.md R58): `val_1`. -/
def State.resolveSource (s : State) (m1 : Mode) : Resolved Word :=
  (checkMode m1).bind fun _ => s.readOperand 1 m1

/-- `ResolveOperands` for IN (30_encoding.md R58): `dest`. -/
def State.resolveDest (s : State) : Resolved Nat := s.writeOperand 1

/-! ### The loop of R58 as the spec writes it, over `arity` and `role`

The meanings call the three forms above; an obligation states that they agree with this loop. -/

/-- What `ResolveOperands` returns: "the val_k and dest the opcode has". -/
structure Operands where
  vals : List Word
  dest : Option Nat
deriving DecidableEq, Repr

/-- The mode pass, ascending `k` (30_encoding.md R58). -/
def modePass : List Slot → Resolved Unit
  | [] => .ok ()
  | slot :: rest =>
    match slot.role with
    | .read => (checkMode slot.mode).bind fun _ => modePass rest
    | .write => modePass rest

/-- The resolution pass from operand position `k` up (30_encoding.md R58). -/
def State.resolutionPass (s : State) : Nat → List Slot → Operands → Resolved Operands
  | _, [], acc => .ok acc
  | k, slot :: rest, acc =>
    match slot.role with
    | .read =>
      (s.readOperand k slot.mode).bind fun v =>
        s.resolutionPass (k + 1) rest { acc with vals := acc.vals ++ [v] }
    | .write =>
      (s.writeOperand k).bind fun d =>
        s.resolutionPass (k + 1) rest { acc with dest := some d }

/-- `ResolveOperands(ip, opc, m1, m2, m3)` (30_encoding.md R58). -/
def State.resolveOperands (s : State) (i : Instr) : Resolved Operands :=
  (modePass i.slots).bind fun _ => s.resolutionPass 1 i.slots { vals := [], dest := none }

end Sys2Proof.Machine
end

