-- ==== Sys2Proof/Machine/Arithmetic.lean ====
section
/-! DEFINITION. ADD and MUL (41_arithmetic.md). -/

namespace Sys2Proof.Machine

/-- An instruction of format F3 with the ALU operation `op`: resolve, write, advance (R76, R77). -/
def State.aluInstr (s : State) (op : Word → Word → Word) (m1 m2 : Mode) :
    Host.Outcome State Fault Refusal :=
  (s.resolveBinary m1 m2).run s fun r => .next ((s.store r.2.2 (op r.1 r.2.1)).advance 4)

/-- ADD (41_arithmetic.md R76). -/
def execAdd (m1 m2 : Mode) (s : State) : Host.Outcome State Fault Refusal :=
  s.aluInstr aluAdd m1 m2

/-- MUL (41_arithmetic.md R77). -/
def execMul (m1 m2 : Mode) (s : State) : Host.Outcome State Fault Refusal :=
  s.aluInstr aluMul m1 m2

end Sys2Proof.Machine
end

