-- ==== Sys2Proof/Machine/Control.lean ====
section
/-! DEFINITION. HALT (40_cycle_and_control.md). -/

namespace Sys2Proof.Machine

/-- HALT (40_cycle_and_control.md R70): it advances `ip` by 1 (R67). -/
def execHalt (s : State) : Host.Outcome State Fault Refusal := .next ((s.halt false).advance 1)

end Sys2Proof.Machine
end

