-- ==== Sys2Proof/Machine/InputOutput.lean ====
section
/-! DEFINITION. IN and OUT (42_io.md). Each resolves its operand, then makes one transfer with the host
through a handshake. Reaching the transfer sets WAIT; the transfer happens at a later edge (R82, R85).
While an instruction waits nothing it was decoded from changes, so the model resolves it anew at each
edge of the wait (log 7). -/

namespace Sys2Proof.Machine

/-- `InRead()` into cell `d` and the end of the IN (42_io.md R81, R82). -/
def State.inputTransfer (s : State) (d : Nat) : State :=
  if s.wait = .input then
    if s.pins.inValid then
      ({ s with wait := .idle, inputsTaken := s.inputsTaken ++ [s.pins.inData] }.store d
        s.pins.inData).advance 2
    else s
  else { s with wait := .input }

/-- IN (42_io.md R81): the destination is checked before any input is taken (R83). -/
def execIn (s : State) : Host.Outcome State Fault Refusal :=
  s.resolveDest.run s fun d => .next (s.inputTransfer d)

/-- `OutWrite(v)` and the end of the OUT (42_io.md R84, R85). -/
def State.outputTransfer (s : State) (v : Word) : State :=
  if s.wait = .output then
    if s.pins.outReady then
      { s with wait := .idle, outputs := s.outputs ++ [v] }.advance 2
    else s
  else { s with wait := .output }

/-- OUT (42_io.md R84). -/
def execOut (m1 : Mode) (s : State) : Host.Outcome State Fault Refusal :=
  (s.resolveSource m1).run s fun v => .next (s.outputTransfer v)

end Sys2Proof.Machine
end

