-- ==== Sys2Proof/Machine/Reserved.lean ====
section
/-! DEFINITION. The reserved and invalid opcodes (43_reserved_and_invalid.md): each raises InvalidOpcode
before any operand is resolved (R91). -/

namespace Sys2Proof.Machine

/-- `raise Fault(InvalidOpcode, opc)` (43_reserved_and_invalid.md R88, R89, R90). -/
def State.raiseInvalidOpcode (s : State) (opc : Int) : Host.Outcome State Fault Refusal :=
  .next (s.takeFault .invalidOpcode (wrap64 opc))

/-- DIV (43_reserved_and_invalid.md R88). -/
def execDiv (s : State) : Host.Outcome State Fault Refusal := s.raiseInvalidOpcode 50

/-- JGE (43_reserved_and_invalid.md R89). -/
def execJge (s : State) : Host.Outcome State Fault Refusal := s.raiseInvalidOpcode 60

/-- Any other invalid opcode (43_reserved_and_invalid.md R90). -/
def execInvalid (opc : Int) (s : State) : Host.Outcome State Fault Refusal :=
  s.raiseInvalidOpcode opc

end Sys2Proof.Machine
end

