-- ==== Sys2Proof/Machine/Dispatch.lean ====
section
/-! DEFINITION. One arm for each constructor of Instr, each a direct call of its meaning. -/

namespace Sys2Proof.Machine

def exec (i : Instr) (s : State) : Host.Outcome State Fault Refusal :=
  match i with
  | .add m1 m2 => Sys2Proof.Machine.execAdd m1 m2 s
  | .mul m1 m2 => Sys2Proof.Machine.execMul m1 m2 s
  | .inp => Sys2Proof.Machine.execIn s
  | .out m1 => Sys2Proof.Machine.execOut m1 s
  | .halt => Sys2Proof.Machine.execHalt s
  | .div => Sys2Proof.Machine.execDiv s
  | .jge => Sys2Proof.Machine.execJge s
  | .invalid opc => Sys2Proof.Machine.execInvalid opc s

end Sys2Proof.Machine
end

