-- ==== Sys2Proof/Machine/Reset.lean ====
section
/-! DEFINITION. Reset and loading (70_reset_and_hazards.md R107 to R112). -/

namespace Sys2Proof.Machine

/-- The load ports at an edge with `rst = 1` (70_reset_and_hazards.md R108): a write at or above
MEM_CAPACITY does nothing. -/
def State.load (s : State) (p : Pins) : State :=
  { s with
    mem :=
      if p.ldWe = true ∧ p.ldAddr.toNat < Config.memCapacity then s.mem.write p.ldAddr.toNat p.ldData
      else s.mem
    msize := if p.ldSizeWe then p.ldSize else s.msize }

/-- An edge with `rst = 1`: no step, the instruction in progress has no effect, a wait is abandoned
(70_reset_and_hazards.md R107, R112), and the load ports act. The other registers keep their values
until the release edge, where R27 gives them (log 8). -/
def State.resetEdge (s : State) (p : Pins) : State :=
  { s.load p with wait := .idle, inReset := true }

/-- The values of 10_state.md R27: `M` and `N` keep what the host loaded. -/
def State.resetValues (s : State) : State :=
  { s with
    ip := 0
    status := .running
    haltKind := false
    faultCode := .noFault
    faultPc := 0
    faultValue := 0
    wait := .idle
    inputsTaken := []
    outputs := []
    inReset := false }

/-- The first edge with `rst = 0` after reset (70_reset_and_hazards.md R107). The host must have
written a size in `1..min(MEM_CAPACITY, 2^63 - 1)` (R110): another one is refused (log 10). -/
def State.release (s : State) : Host.Outcome State Fault Refusal :=
  if s.sizeLegal = true ∧ s.msize.toNat ≤ Config.memCapacity then .next s.resetValues
  else .refused .sizeNotLoaded

end Sys2Proof.Machine
end

