-- ==== Sys2Proof/Machine/Cycle.lean ====
section
/-! DEFINITION. The sequencer: `Step()` of 40_cycle_and_control.md R66, and reset around it. -/

namespace Sys2Proof.Machine

/-- Fetch, decode, execute at `ip < N` (40_cycle_and_control.md R66): the decoder finds an opcode
outside VALID to be DIV, JGE or INVALID, whose meanings raise InvalidOpcode. -/
def State.fetchExec (s : State) : Host.Outcome State Fault Refusal :=
  match s.cell s.ip.toNat with
  | .ok w => exec (decode w) s
  | .trap c v => .next (s.takeFault c v)
  | .refuse r => .refused r

/-- `Step()` (40_cycle_and_control.md R66): at `ip >= N` the run ends at the boundary (R71). A run
whose size was never loaded is refused (70_reset_and_hazards.md R110). -/
def State.runStep (s : State) : Host.Outcome State Fault Refusal :=
  if s.sizeLegal then
    if s.msize.toNat ≤ s.ip.toNat then .next (s.halt true) else s.fetchExec
  else .refused .sizeNotLoaded

/-- The core's own move with `rst = 0`: it steps only while Running (R66), and in Halted and Faulted it
holds all it has (R73). STATUS = 11 is stuck (10_state.md R15). -/
def State.coreStep (s : State) : Host.Outcome State Fault Refusal :=
  match s.status with
  | .running => s.runStep
  | .halted => .next s
  | .faulted => .next s
  | .reserved => .fault .stuckStatus

/-- One event under what the host drives now: reset overrides everything (60_exceptions.md R95), the
release edge comes next, and otherwise the core moves. -/
def State.event (s : State) : Host.Outcome State Fault Refusal :=
  if s.pins.rst then .next (s.resetEdge s.pins)
  else if s.inReset then s.release
  else s.coreStep

/-- One event, after which the host goes on to what it drives next (log 5). -/
def State.tick (s : State) : Host.Outcome State Fault Refusal := mapNext State.popHost s.event

/-- The state with an instruction of four cells where the next fetch takes it, and the core free to
fetch it: Running, out of reset, and no `rst` at the next step (log 4). -/
def State.withCells (s : State) (cells : List Word) : State :=
  { s.placeCells s.ip.toNat cells with
    status := .running
    inReset := false
    host := if s.pins.rst then [] else s.host }

end Sys2Proof.Machine
end

