-- ==== Sys2Proof/Machine/Step.lean ====
section
/-! DEFINITION. One step of the machine, and an instruction placed where it is fetched next. -/

namespace Sys2Proof.Machine

/-- One step (log 6): an event of the core, of reset, or of a wait. -/
def step (s : State) : Host.Outcome State Fault Refusal := s.tick

/-- `s` with the instruction of spec/opcode_table.json's bits `w` where `step` fetches next: cells
`ip..ip+3`, an MSIZE that takes them in, the core Running (log 4). It holds for `ip + 4 < 2^63`. -/
def State.withFetchWord (s : State) (nbits w : Nat) : State :=
  s.withCells [tableCell nbits w 0, tableCell nbits w 1, tableCell nbits w 2, tableCell nbits w 3]

end Sys2Proof.Machine
end

