-- ==== Sys2Proof/Machine/Assembly.lean ====
section
/-! DEFINITION. The assembly notation and the canonical encoding of whole instructions, operand words
included (30_encoding.md R62, R63). Notation only: the machine does not use it. -/

namespace Sys2Proof.Machine

/-- A read operand as it is written: `[a]` for position mode, `#v` for immediate (30_encoding.md R62). -/
inductive Source where
  | cell (a : Word)
  | imm (v : Word)
deriving DecidableEq, Repr

/-- The forms of 30_encoding.md R62. A write operand is always `[d]`; `data` is `.word v`. -/
inductive Asm where
  | add (s1 s2 : Source) (d : Word)
  | mul (s1 s2 : Source) (d : Word)
  | inp (d : Word)
  | out (s1 : Source)
  | halt
  | data (v : Word)
deriving DecidableEq, Repr

/-- The mode of a written operand (30_encoding.md R63). -/
def Source.mode : Source → Mode
  | .cell _ => .position
  | .imm _ => .immediate

/-- The operand word of a written operand (30_encoding.md R63). -/
def Source.word : Source → Word
  | .cell a => a
  | .imm v => v

/-- The cells of an assembly line (30_encoding.md R63). -/
def Asm.cells : Asm → List Word
  | .add s1 s2 d => [encode (.add s1.mode s2.mode), s1.word, s2.word, d]
  | .mul s1 s2 d => [encode (.mul s1.mode s2.mode), s1.word, s2.word, d]
  | .inp d => [encode .inp, d]
  | .out s1 => [encode (.out s1.mode), s1.word]
  | .halt => [encode .halt]
  | .data v => [v]

/-- Whether the line is an instruction, not a data cell. -/
def Asm.isInstruction : Asm → Bool
  | .add _ _ _ => true
  | .mul _ _ _ => true
  | .inp _ => true
  | .out _ => true
  | .halt => true
  | .data _ => false

/-- The image of a listing: its cells in order. -/
def assemble : List Asm → List Word
  | [] => []
  | a :: rest => a.cells ++ assemble rest

/-- A read operand written back from its mode and its operand word; none for a digit 2..9. -/
def Source.ofMode (m : Mode) (w : Word) : Option Source :=
  match m with
  | .position => some (.cell w)
  | .immediate => some (.imm w)
  | .undefined _ => none

/-- An instruction with three operands, written back from its operand words. -/
def disassembleF3 (mk : Source → Source → Word → Asm) (m1 m2 : Mode) (ps : List Word) :
    Option (Asm × List Word) :=
  match ps with
  | p1 :: p2 :: p3 :: rest =>
    (Source.ofMode m1 p1).bind fun s1 => (Source.ofMode m2 p2).map fun s2 => (mk s1 s2 p3, rest)
  | _ => none

/-- The instruction at the head of a list of cells, written in assembly, and the cells after it; none
for an invalid opcode, a mode digit 2..9 or missing operand words. -/
def disassemble : List Word → Option (Asm × List Word)
  | [] => none
  | w :: ps =>
    match decode w with
    | .add m1 m2 => disassembleF3 .add m1 m2 ps
    | .mul m1 m2 => disassembleF3 .mul m1 m2 ps
    | .inp =>
      match ps with
      | p1 :: rest => some (.inp p1, rest)
      | [] => none
    | .out m1 =>
      match ps with
      | p1 :: rest => (Source.ofMode m1 p1).map fun s1 => (.out s1, rest)
      | [] => none
    | .halt => some (.halt, ps)
    | .div => none
    | .jge => none
    | .invalid _ => none

end Sys2Proof.Machine
end

