-- ==== Sys2Proof/Machine/Ports.lean ====
section
/-! DEFINITION. The block's output ports, as functions of the state and of what the host drives now
(10_state.md R12, R20, R24 to R26; 20_memory.md R40; 30_encoding.md R64; 60_exceptions.md R106).
An output without meaning is none: the spec has a model give it no value (log 12). -/

namespace Sys2Proof.Machine

/-! ### Status ports (10_state.md R26) -/

/-- `status`. -/
def State.statusPort (s : State) : BitVec 2 := s.status.bits

/-- `halt_kind`. -/
def State.haltKindPort (s : State) : BitVec 1 := haltKindBits s.haltKind

/-- `fault_code`. -/
def State.faultCodePort (s : State) : BitVec 2 := s.faultCode.bits

/-- `fault_pc`. -/
def State.faultPcPort (s : State) : Word := s.faultPc

/-- `fault_value`. -/
def State.faultValuePort (s : State) : Word := s.faultValue

/-- `result_valid` (10_state.md R20). -/
def State.resultValid (s : State) : Bool := decide (s.status = .halted)

/-- `result` (10_state.md R20): `M[0]` while Halted, otherwise without meaning. -/
def State.result (s : State) : Option Word := if s.resultValid then s.mem.read 0 else none

/-- A run is over exactly when STATUS is Halted or Faulted (70_reset_and_hazards.md R114). -/
def State.runOver (s : State) : Bool := decide (s.status = .halted ∨ s.status = .faulted)

/-! ### Stream ports (10_state.md R25) -/

/-- `in_ready` (10_state.md R21, R25): 0 while `rst = 1` (70_reset_and_hazards.md R107). -/
def State.inReady (s : State) : Bool := decide (s.wait = .input) && !s.pins.rst

/-- `out_valid` (10_state.md R21, R25): 0 while `rst = 1` (70_reset_and_hazards.md R107). -/
def State.outValid (s : State) : Bool := decide (s.wait = .output) && !s.pins.rst

/-- The value the OUT at `ip` offers: its `val_1` (42_io.md R84), which the state determines. -/
def State.offeredValue (s : State) : Option Word :=
  match s.cell s.ip.toNat with
  | .ok w =>
    match decode w with
    | .out m1 =>
      match s.resolveSource m1 with
      | .ok v => some v
      | .trap _ _ => none
      | .refuse _ => none
    | .add _ _ => none
    | .mul _ _ => none
    | .inp => none
    | .halt => none
    | .div => none
    | .jge => none
    | .invalid _ => none
  | .trap _ _ => none
  | .refuse _ => none

/-- `out_data` (42_io.md R85): driven while `out_valid = 1`. -/
def State.outData (s : State) : Option Word := if s.outValid then s.offeredValue else none

/-! ### The memory read port and the inspection port -/

/-- When the host may read memory: in reset or in a terminal state (20_memory.md R40). -/
def State.hostMayRead (s : State) : Bool := s.pins.rst || s.runOver

/-- `rd_data` (20_memory.md R40): without meaning while Running and for `rd_addr >= N`. -/
def State.rdData (s : State) : Option Word :=
  if s.hostMayRead = true ∧ s.pins.rdAddr.toNat < s.msize.toNat then s.mem.read s.pins.rdAddr.toNat
  else none

/-- `insp_name` (30_encoding.md R64). -/
inductive OpName where
  | add
  | mul
  | inp
  | out
  | halt
  | div
  | jge
  | invalid
deriving DecidableEq, Repr

/-- The numbers `insp_name` shows (30_encoding.md R64). -/
def OpName.code : OpName → BitVec 3
  | .add => 0
  | .mul => 1
  | .inp => 2
  | .out => 3
  | .halt => 4
  | .div => 5
  | .jge => 6
  | .invalid => 7

/-- The name of an instruction, by its opcode (30_encoding.md R64). -/
def opName : Instr → OpName
  | .add _ _ => .add
  | .mul _ _ => .mul
  | .inp => .inp
  | .out _ => .out
  | .halt => .halt
  | .div => .div
  | .jge => .jge
  | .invalid _ => .invalid

/-- `insp_count` (30_encoding.md R64): the OPEN parameters for DIV and JGE, 0 for other invalid
opcodes. -/
def inspCount : Instr → Nat
  | .add _ _ => 3
  | .mul _ _ => 3
  | .inp => 1
  | .out _ => 1
  | .halt => 0
  | .div => Config.inspArityDiv.val
  | .jge => Config.inspArityJge.val
  | .invalid _ => 0

/-- One operand of the inspection port: `insp_opnd_ok_k` and `insp_opnd_k`. -/
structure InspOperand where
  ok : Bool
  value : Option Word
deriving DecidableEq, Repr

/-- The outputs of the inspection port when `insp_ok = 1` (30_encoding.md R64). -/
structure Inspection where
  word : Word
  opc : Word
  name : OpName
  modes : Nat × Nat × Nat
  count : Nat
  opnd1 : InspOperand
  opnd2 : InspOperand
  opnd3 : InspOperand
  next : Word
deriving DecidableEq, Repr

/-- Operand `k` of an instruction at `a` with `count` operands (30_encoding.md R64). -/
def State.inspOperand (s : State) (a count k : Nat) : InspOperand :=
  if k ≤ count ∧ a + k < s.msize.toNat then { ok := true, value := s.mem.read (a + k) }
  else { ok := false, value := none }

/-- The description of the word `w` at `a` (30_encoding.md R64). -/
def State.describe (s : State) (a : Nat) (w : Word) : Inspection :=
  { word := w
    opc := wrap64 (decodeFields w).opc
    name := opName (decode w)
    modes := ((decodeFields w).m1, (decodeFields w).m2, (decodeFields w).m3)
    count := inspCount (decode w)
    opnd1 := s.inspOperand a (inspCount (decode w)) 1
    opnd2 := s.inspOperand a (inspCount (decode w)) 2
    opnd3 := s.inspOperand a (inspCount (decode w)) 3
    next := BitVec.ofNat 64 (a + 1 + inspCount (decode w)) }

/-- `insp_ok` for `insp_addr = a` (30_encoding.md R64). -/
def State.inspOk (s : State) (a : Word) : Bool := s.valid a

/-- The inspection of address `a`: without meaning when `insp_ok = 0`, or when nobody loaded the
cell (70_reset_and_hazards.md R110). -/
def State.inspect (s : State) (a : Word) : Option Inspection :=
  if s.inspOk a then (s.mem.read a.toNat).map (s.describe a.toNat) else none

/-- The inspection port itself: `insp_ok` and the other outputs, when the host may read. -/
def State.inspPort (s : State) : Option (Bool × Option Inspection) :=
  if s.hostMayRead then some (s.inspOk s.pins.inspAddr, s.inspect s.pins.inspAddr) else none

/-! ### The fault report (60_exceptions.md R106) -/

/-- The reason strings of 60_exceptions.md R106. -/
def FaultCode.reason : FaultCode → String
  | .noFault => ""
  | .badAddress => "bad position"
  | .invalidOpcode => "wrong opcode"
  | .invalidMode => "bad mode"

/-- "its address, opcode name or INVALID, and its operand words plus the fault reason". -/
structure FaultReport where
  address : Word
  code : FaultCode
  value : Word
  reason : String
  instruction : Option Inspection
deriving DecidableEq, Repr

/-- What a host learns of a faulted run: the status ports, and the inspection of FAULT_PC. -/
def State.faultReport (s : State) : Option FaultReport :=
  if s.status = .faulted then
    some
      { address := s.faultPc
        code := s.faultCode
        value := s.faultValue
        reason := s.faultCode.reason
        instruction := s.inspect s.faultPc }
  else none

/-! ### What a run leaves (70_reset_and_hazards.md R114) -/

/-- The observation of a run that is over. A faulted run has no result (40_cycle_and_control.md R72). -/
structure Observation where
  status : Status
  haltKind : Bool
  faultCode : FaultCode
  faultPc : Word
  faultValue : Word
  result : Option Word
  memory : List (Nat × Word)
  inputsTaken : List Word
  outputs : List Word
deriving DecidableEq, Repr

/-- What a run leaves; none for a run that is not over. Cells at or above N are no part of it. -/
def State.observe (s : State) : Option Observation :=
  if s.runOver then
    some
      { status := s.status
        haltKind := s.haltKind
        faultCode := s.faultCode
        faultPc := s.faultPc
        faultValue := s.faultValue
        result := s.result
        memory := s.mem.filter fun c => decide (c.1 < s.msize.toNat)
        inputsTaken := s.inputsTaken
        outputs := s.outputs }
  else none

end Sys2Proof.Machine
end

