-- ==== Sys2Proof/Safety.lean ====
section
/-! DEFINITION. The terms in which statements speak of runs: the invariant of the machine, what a host
does or leaves undone, several steps in a row, and loading an image through the ports. -/

namespace Sys2Proof.Machine

/-! ### The invariant -/

/-- What every step keeps and reset establishes. -/
structure State.Inv (s : State) : Prop where
  /-- Memory is in its canonical form (log 1). -/
  memCanonical : s.mem.wf = true
  /-- `0 <= ip <= N` (10_state.md R14, 40_cycle_and_control.md R69). In reset the host may be writing
  MSIZE, and `ip` gets its value at the release. -/
  ipBound : s.inReset = false → s.ip.toNat ≤ s.msize.toNat
  /-- STATUS = 11 is never produced (10_state.md R15). -/
  statusLegal : s.status ≠ .reserved
  /-- HALT_KIND reads 0 unless Halted (10_state.md R16). -/
  haltKindHalted : s.haltKind = true → s.status = .halted
  /-- A run that ended at the boundary has `ip = N` (40_cycle_and_control.md R69, R71). -/
  boundaryAtEnd : s.inReset = false → s.haltKind = true → s.ip = s.msize
  /-- FAULT_CODE is non-zero exactly when Faulted (10_state.md R17). -/
  faultCodeFaulted : s.faultCode ≠ .noFault ↔ s.status = .faulted
  /-- FAULT_PC and FAULT_VALUE hold their reset values until a fault (10_state.md R18, R19, R27). -/
  faultRegsClear : s.status ≠ .faulted → s.faultPc = 0 ∧ s.faultValue = 0
  /-- FAULT_PC is the address of the faulting word, where `ip` stays (10_state.md R18, R93). -/
  faultPcIp : s.status = .faulted → s.faultPc = s.ip
  /-- FAULT_VALUE of InvalidMode is a digit in 2..9 (10_state.md R19). -/
  faultValueMode : s.faultCode = .invalidMode → 2 ≤ s.faultValue.toNat ∧ s.faultValue.toNat ≤ 9
  /-- FAULT_VALUE of InvalidOpcode is an opcode in -99..99 outside VALID (10_state.md R19, R92). -/
  faultValueOpcode : s.faultCode = .invalidOpcode →
    -99 ≤ s.faultValue.toInt ∧ s.faultValue.toInt ≤ 99 ∧
      s.faultValue.toInt ∉ ([1, 2, 3, 4, 99] : List Int)
  /-- FAULT_VALUE of BadAddress is no valid address (10_state.md R19, 60_exceptions.md R92). -/
  faultValueAddress : s.inReset = false → s.faultCode = .badAddress → s.valid s.faultValue = false
  /-- Only a Running core out of reset waits (10_state.md R21, 40_cycle_and_control.md R73). -/
  waitRunning : s.wait ≠ .idle →
    s.status = .running ∧ s.inReset = false ∧ s.sizeLegal = true ∧ s.ip.toNat < s.msize.toNat
  /-- `WAIT = 01` is an IN at `ip` whose destination is good (42_io.md R82, R83). -/
  waitInput : s.wait = .input →
    ∃ w d, s.mem.read s.ip.toNat = some w ∧ decode w = .inp ∧ s.resolveDest = .ok d
  /-- `WAIT = 10` is an OUT at `ip` whose operand has a value (42_io.md R85). -/
  waitOutput : s.wait = .output →
    ∃ w m1 v, s.mem.read s.ip.toNat = some w ∧ decode w = .out m1 ∧ s.resolveSource m1 = .ok v

/-! ### Premises about a run and its host -/

/-- The core is about to step: Running, out of reset, with a size a load may give, and the host does
not reset it now. -/
def State.ready (s : State) : Prop :=
  s.status = .running ∧ s.inReset = false ∧ s.sizeLegal = true ∧ s.pins.rst = false

/-- "every cell in `0..N-1` was loaded" (70_reset_and_hazards.md R110). -/
def State.fullyLoaded (s : State) : Prop := ∀ a, a < s.msize.toNat → (s.mem.read a).isSome = true

/-- The host never asserts `rst` (past the list's end it drives `Pins.quiet`). -/
def State.noReset (s : State) : Prop := ∀ p ∈ s.host, p.rst = false

/-- At each of the next `n` steps the host offers an input value and accepts output
(70_reset_and_hazards.md R119). -/
def State.eagerFor (s : State) (n : Nat) : Prop :=
  n ≤ s.host.length ∧ ∀ p ∈ s.host, p.inValid = true ∧ p.outReady = true

/-- `n` steps, stopping at the first that gives no next state. -/
def steps : Nat → State → Host.Outcome State Fault Refusal
  | 0, s => .next s
  | n + 1, s =>
    match step s with
    | .next t => steps n t
    | .fault r => .fault r
    | .refused r => .refused r

/-! ### Operands, said of the cells (30_encoding.md R54 to R57) -/

/-- Read operand `k` in mode `m` has the value `v`: its word lies inside memory and is loaded, and in
position mode it is a valid address of a loaded cell. -/
def State.SourceValue (s : State) (k : Nat) (m : Mode) (v : Word) : Prop :=
  ∃ p, s.ip.toNat + k < s.msize.toNat ∧ s.mem.read (s.ip.toNat + k) = some p ∧
    match m with
    | .position =>
      0 ≤ p.toInt ∧ p.toInt < s.msize.toNat ∧ s.mem.read p.toInt.toNat = some v
    | .immediate => v = p
    | .undefined _ => False

/-- Write operand `k` names cell `d`: its word lies inside memory, is loaded and is a valid address. -/
def State.Destination (s : State) (k d : Nat) : Prop :=
  ∃ p, s.ip.toNat + k < s.msize.toNat ∧ s.mem.read (s.ip.toNat + k) = some p ∧
    0 ≤ p.toInt ∧ p.toInt < s.msize.toNat ∧ d = p.toInt.toNat

/-- STATUS, HALT_KIND and the fault registers are the same. -/
def State.sameStatusRegs (s t : State) : Prop :=
  t.status = s.status ∧ t.haltKind = s.haltKind ∧ t.faultCode = s.faultCode ∧
    t.faultPc = s.faultPc ∧ t.faultValue = s.faultValue

/-- `t` is `s` after a fault entry (60_exceptions.md R93): nothing else is changed. -/
def State.enteredFault (s t : State) : Prop :=
  t = { s with
        status := .faulted, faultCode := t.faultCode, faultPc := s.ip
        faultValue := t.faultValue, wait := .idle } ∧ t.faultCode ≠ .noFault

/-! ### Loading an image through the ports (70_reset_and_hazards.md R108, R110) -/

/-- `ld_we` with `v` for cell `a`, in reset. -/
def Pins.loadCell (a : Nat) (v : Word) : Pins :=
  { Pins.quiet with rst := true, ldWe := true, ldAddr := BitVec.ofNat 64 a, ldData := v }

/-- `ld_size_we` with `n`, in reset. -/
def Pins.loadSize (n : Nat) : Pins :=
  { Pins.quiet with rst := true, ldSizeWe := true, ldSize := BitVec.ofNat 64 n }

/-- The loads of the cells from `a` up. -/
def loadCells : Nat → List Word → List Pins
  | _, [] => []
  | a, v :: vs => Pins.loadCell a v :: loadCells (a + 1) vs

/-- A host that loads an image: the size, every cell in order, then the release of `rst`. -/
def loadDrives (image : List Word) : List Pins :=
  Pins.loadSize image.length :: loadCells 0 image ++ [Pins.quiet]

/-! ### Comparing two executions -/

/-- Both executions complete, with `v` in cell `d` and the same `ip` (41_arithmetic.md R79). -/
def agreeAt (d : Nat) (v : Word) (o o' : Host.Outcome State Fault Refusal) : Prop :=
  ∃ t t', o = .next t ∧ o' = .next t' ∧ t.mem.read d = some v ∧ t'.mem.read d = some v ∧ t.ip = t'.ip

/-! ### What a program can see (10_state.md R23) -/

/-- Two states that differ at most in the registers no instruction reads (STATUS, HALT_KIND,
FAULT_CODE, FAULT_PC, FAULT_VALUE), the stream histories, and what the host drives later. -/
def State.sameView (s t : State) : Prop :=
  s.mem = t.mem ∧ s.msize = t.msize ∧ s.ip = t.ip ∧ s.wait = t.wait ∧ s.pins = t.pins

end Sys2Proof.Machine
end

