-- ==== Sys2Proof/Certificates/Slice0/Obligations.lean ====
section
/-! DEFINITION. The statements for the provers. Each docstring names the rule of spec/ it formalises.
Rules whose clauses the spec decides itself (92_eei_decisions.md) are named with the decision. -/

open Sys2Proof Sys2Proof.Machine

/-! ### Decoding and encoding -/

/-- 95_test_vectors.md section 2.1: instruction words and the instructions they stand for. -/
def Obligations.DecodeReadsWrittenWords : Prop :=
  decode 1 = .add .position .position ∧
  decode 1002 = .mul .position .immediate ∧
  decode 1101 = .add .immediate .immediate ∧
  decode 20001 = .add .position .position ∧
  decode 2301 = .add (.undefined 3) (.undefined 2) ∧
  decode 3 = .inp ∧
  decode 5004 = .out .position ∧
  decode 104 = .out .immediate ∧
  decode 299 = .halt ∧
  decode 1150 = .div ∧
  decode 60 = .jge ∧
  decode 207 = .invalid 7 ∧
  decode (-101) = .invalid (-1)

/-- 30_encoding.md R45: a word that is not negative is its decimal fields, and no others. -/
def Obligations.DecimalFieldsOfWord : Prop :=
  ∀ w : Word, 0 ≤ w.toInt →
    (∃ H : Int, 0 ≤ H ∧
      w.toInt = H * 10 ^ 5 + (decodeFields w).m3 * 10 ^ 4 + (decodeFields w).m2 * 10 ^ 3 +
        (decodeFields w).m1 * 10 ^ 2 + (decodeFields w).opc ∧
      0 ≤ (decodeFields w).opc ∧ (decodeFields w).opc ≤ 99 ∧
      (decodeFields w).m1 ≤ 9 ∧ (decodeFields w).m2 ≤ 9 ∧ (decodeFields w).m3 ≤ 9) ∧
    ∀ (H : Int) (opc : Int) (m1 m2 m3 : Nat), 0 ≤ H → 0 ≤ opc → opc ≤ 99 → m1 ≤ 9 → m2 ≤ 9 →
      m3 ≤ 9 → w.toInt = H * 10 ^ 5 + m3 * 10 ^ 4 + m2 * 10 ^ 3 + m1 * 10 ^ 2 + opc →
      decodeFields w = { opc := opc, m1 := m1, m2 := m2, m3 := m3 }

/-- 30_encoding.md R46 (decision D6 for negative words): the decoder, and that every negative word
raises InvalidOpcode. -/
def Obligations.DecoderFollowsRemainder : Prop :=
  ∀ w : Word,
    (decodeFields w).opc = Int.tmod w.toInt 100 ∧
    (0 ≤ w.toInt →
      ((decodeFields w).m1 : Int) = w.toInt / 10 ^ 2 % 10 ∧
      ((decodeFields w).m2 : Int) = w.toInt / 10 ^ 3 % 10 ∧
      ((decodeFields w).m3 : Int) = w.toInt / 10 ^ 4 % 10) ∧
    (w.toInt < 0 →
      (decodeFields w).m1 = 0 ∧ (decodeFields w).m2 = 0 ∧ (decodeFields w).m3 = 0 ∧
      -99 ≤ (decodeFields w).opc ∧ (decodeFields w).opc ≤ 0 ∧
      decode w = .invalid (decodeFields w).opc ∧
      ∀ s : State, exec (decode w) s =
        .next { s with
          status := .faulted, faultCode := .invalidOpcode, faultPc := s.ip
          faultValue := BitVec.ofInt 64 (decodeFields w).opc, wait := .idle })

/-- 30_encoding.md R48: which opcodes are valid, and that every other raises InvalidOpcode. -/
def Obligations.OnlyFiveOpcodesAreValid : Prop :=
  ∀ w : Word,
    ((decode w).valid = true ↔ (decodeFields w).opc ∈ ([1, 2, 3, 4, 99] : List Int)) ∧
    ((decodeFields w).opc ∉ ([1, 2, 3, 4, 99] : List Int) →
      ∀ s : State, exec (decode w) s =
        .next { s with
          status := .faulted, faultCode := .invalidOpcode, faultPc := s.ip
          faultValue := BitVec.ofInt 64 (decodeFields w).opc, wait := .idle })

/-- 30_encoding.md R50 to R52: only the mode digits of read operands count. -/
def Obligations.IgnoredDigitsDoNotMatter : Prop :=
  ∀ w w' : Word, 0 ≤ w.toInt → 0 ≤ w'.toInt →
    (decodeFields w).opc = (decodeFields w').opc →
    ((decodeFields w).opc ∈ ([1, 2, 4] : List Int) → (decodeFields w).m1 = (decodeFields w').m1) →
    ((decodeFields w).opc ∈ ([1, 2] : List Int) → (decodeFields w).m2 = (decodeFields w').m2) →
    decode w = decode w'

/-- Decoding the canonical word of a well-formed instruction gives it back (30_encoding.md R63). -/
def Obligations.DecodeEncodeRoundTrip : Prop :=
  ∀ i : Instr, i.wf = true → decode (encode i) = i

/-- Every word decodes to a well-formed instruction, and decoding its canonical word changes nothing
(30_encoding.md R63, the spec's inference from R46 and R52). -/
def Obligations.DecodeIsWellFormedAndCanonical : Prop :=
  ∀ w : Word, (decode w).wf = true ∧ decode (encode (decode w)) = decode w

/-- An assembled instruction, operand words included, reads back, with the cells after it
(30_encoding.md R62, R63). -/
def Obligations.AssemblyRoundTrip : Prop :=
  ∀ (a : Asm) (rest : List Word), a.isInstruction = true →
    disassemble (a.cells ++ rest) = some (a, rest)

/-! ### Memory and addresses -/

/-- Equal memories are equal data: two canonical memories that read the same are the same list
(the model's form of memory, log 1). -/
def Obligations.EqualReadsEqualMemories : Prop :=
  ∀ m m' : Memory, m.wf = true → m'.wf = true → (∀ a, m.read a = m'.read a) → m = m'

/-- 20_memory.md R29. -/
def Obligations.ValidAddressesAreBelowSize : Prop :=
  ∀ (s : State) (v : Word),
    (s.valid v = true ↔ 0 ≤ v.toInt ∧ v.toInt < s.msize.toNat) ∧
    (v.toInt < 0 → s.valid v = false) ∧
    ((s.msize.toNat : Int) ≤ v.toInt → s.valid v = false)

/-! ### Operand resolution -/

/-- 30_encoding.md R54 (decision D9). -/
def Obligations.OperandWordPastEndIsBadAddress : Prop :=
  ∀ (s : State) (k : Nat),
    (s.msize.toNat ≤ s.ip.toNat + k →
      s.operandWord k = .trap .badAddress (BitVec.ofNat 64 (s.ip.toNat + k))) ∧
    (s.ip.toNat + k < s.msize.toNat → ∀ v, s.mem.read (s.ip.toNat + k) = some v →
      s.operandWord k = .ok v) ∧
    (s.sizeLegal = true → s.ip.toNat < s.msize.toNat → 1 ≤ k → k ≤ 3 →
      s.msize.toNat ≤ s.ip.toNat + k →
      (BitVec.ofNat 64 (s.ip.toNat + k)).toNat = s.ip.toNat + k ∧
      s.ip.toNat + k ≤ s.msize.toNat + 2)

/-- 30_encoding.md R55. -/
def Obligations.PositionOperandReadsItsCell : Prop :=
  ∀ (s : State) (k : Nat) (raw : Word), s.operandWord k = .ok raw →
    (¬(0 ≤ raw.toInt ∧ raw.toInt < s.msize.toNat) →
      s.readOperand k .position = .trap .badAddress raw) ∧
    (0 ≤ raw.toInt → raw.toInt < s.msize.toNat → ∀ v, s.mem.read raw.toInt.toNat = some v →
      s.readOperand k .position = .ok v)

/-- 30_encoding.md R56: any Int64 is a legal immediate. -/
def Obligations.ImmediateOperandIsItself : Prop :=
  ∀ (s : State) (k : Nat) (raw : Word), s.operandWord k = .ok raw →
    s.readOperand k .immediate = .ok raw

/-- 30_encoding.md R57: a write operand is an address, and an IN with a bad one faults before it
takes input. -/
def Obligations.WriteOperandIsCheckedAddress : Prop :=
  ∀ (s : State) (k : Nat) (raw : Word), s.operandWord k = .ok raw →
    (¬(0 ≤ raw.toInt ∧ raw.toInt < s.msize.toNat) →
      s.writeOperand k = .trap .badAddress raw ∧
      (k = 1 → exec .inp s =
        .next { s with
          status := .faulted, faultCode := .badAddress, faultPc := s.ip, faultValue := raw
          wait := .idle })) ∧
    (0 ≤ raw.toInt → raw.toInt < s.msize.toNat → s.writeOperand k = .ok raw.toInt.toNat)

/-- 30_encoding.md R53 (decision D7): a mode digit 2..9 of a read operand raises InvalidMode before
any operand word is fetched, the lowest operand first; a write operand's digit is never checked. -/
def Obligations.UndefinedModeRaisesInvalidMode : Prop :=
  ∀ (w : Word) (s : State), 0 ≤ w.toInt →
    ((decodeFields w).opc ∈ ([1, 2, 4] : List Int) → 2 ≤ (decodeFields w).m1 →
      exec (decode w) s =
        .next { s with
          status := .faulted, faultCode := .invalidMode, faultPc := s.ip
          faultValue := BitVec.ofNat 64 (decodeFields w).m1, wait := .idle }) ∧
    ((decodeFields w).opc ∈ ([1, 2] : List Int) → (decodeFields w).m1 ≤ 1 →
      2 ≤ (decodeFields w).m2 →
      exec (decode w) s =
        .next { s with
          status := .faulted, faultCode := .invalidMode, faultPc := s.ip
          faultValue := BitVec.ofNat 64 (decodeFields w).m2, wait := .idle }) ∧
    ((decodeFields w).opc ∈ ([1, 2] : List Int) → ∀ w' : Word, 0 ≤ w'.toInt →
      (decodeFields w').opc = (decodeFields w).opc → (decodeFields w').m1 = (decodeFields w).m1 →
      (decodeFields w').m2 = (decodeFields w).m2 → exec (decode w') s = exec (decode w) s) ∧
    ((decodeFields w).opc = 3 → exec (decode w) s = exec .inp s)

/-- 30_encoding.md R58: the three resolutions that the meanings use are the loop of the rule, over
the table's arities and roles. -/
def Obligations.ResolutionFollowsTheLoop : Prop :=
  ∀ s : State,
    (∀ m1 m2 : Mode,
      s.resolveOperands (.add m1 m2) =
        (s.resolveBinary m1 m2).bind fun r => .ok { vals := [r.1, r.2.1], dest := some r.2.2 }) ∧
    (∀ m1 m2 : Mode,
      s.resolveOperands (.mul m1 m2) =
        (s.resolveBinary m1 m2).bind fun r => .ok { vals := [r.1, r.2.1], dest := some r.2.2 }) ∧
    s.resolveOperands .inp = (s.resolveDest.bind fun d => .ok { vals := [], dest := some d }) ∧
    (∀ m1 : Mode,
      s.resolveOperands (.out m1) =
        (s.resolveSource m1).bind fun v => .ok { vals := [v], dest := none }) ∧
    s.resolveOperands .halt = .ok { vals := [], dest := none }

/-- 60_exceptions.md R95 (decision D10): of several defects of an ADD or MUL the first is reported:
the modes in ascending order, then the operands in ascending order, bound before value. -/
def Obligations.FirstDefectIsReported : Prop :=
  ∀ (s : State) (i : Instr) (m1 m2 : Mode), i = .add m1 m2 ∨ i = .mul m1 m2 →
    (∀ d, m1 = .undefined d →
      exec i s = .next (s.takeFault .invalidMode (BitVec.ofNat 64 d))) ∧
    (∀ d, (m1 = .position ∨ m1 = .immediate) → m2 = .undefined d →
      exec i s = .next (s.takeFault .invalidMode (BitVec.ofNat 64 d))) ∧
    ((m1 = .position ∨ m1 = .immediate) → (m2 = .position ∨ m2 = .immediate) →
      (s.msize.toNat ≤ s.ip.toNat + 1 →
        exec i s = .next (s.takeFault .badAddress (BitVec.ofNat 64 (s.ip.toNat + 1)))) ∧
      (∀ p, s.operandWord 1 = .ok p → m1 = .position → s.valid p = false →
        exec i s = .next (s.takeFault .badAddress p)) ∧
      (∀ v, s.SourceValue 1 m1 v → s.msize.toNat ≤ s.ip.toNat + 2 →
        exec i s = .next (s.takeFault .badAddress (BitVec.ofNat 64 (s.ip.toNat + 2)))) ∧
      (∀ v p, s.SourceValue 1 m1 v → s.operandWord 2 = .ok p → m2 = .position →
        s.valid p = false → exec i s = .next (s.takeFault .badAddress p)) ∧
      (∀ v v', s.SourceValue 1 m1 v → s.SourceValue 2 m2 v' → s.msize.toNat ≤ s.ip.toNat + 3 →
        exec i s = .next (s.takeFault .badAddress (BitVec.ofNat 64 (s.ip.toNat + 3)))) ∧
      (∀ v v' p, s.SourceValue 1 m1 v → s.SourceValue 2 m2 v' → s.operandWord 3 = .ok p →
        s.valid p = false → exec i s = .next (s.takeFault .badAddress p)))

/-! ### The ALU -/

/-- 41_arithmetic.md R75 (decision D11): exact in range, wrapped modulo 2^64 otherwise, the same bits
signed or unsigned, and the laws the rule derives. -/
def Obligations.AluWrapsModulo : Prop :=
  ∀ a b c : Word,
    (-2 ^ 63 ≤ a.toInt + b.toInt → a.toInt + b.toInt < 2 ^ 63 →
      (aluAdd a b).toInt = a.toInt + b.toInt) ∧
    (-2 ^ 63 ≤ a.toInt * b.toInt → a.toInt * b.toInt < 2 ^ 63 →
      (aluMul a b).toInt = a.toInt * b.toInt) ∧
    (aluAdd a b).toInt ≡ a.toInt + b.toInt [ZMOD 2 ^ 64] ∧
    (aluMul a b).toInt ≡ a.toInt * b.toInt [ZMOD 2 ^ 64] ∧
    (aluAdd a b).toNat = (a.toNat + b.toNat) % 2 ^ 64 ∧
    (aluMul a b).toNat = a.toNat * b.toNat % 2 ^ 64 ∧
    aluAdd a b = aluAdd b a ∧ aluMul a b = aluMul b a ∧
    aluAdd (aluAdd a b) c = aluAdd a (aluAdd b c) ∧
    aluMul (aluMul a b) c = aluMul a (aluMul b c) ∧
    aluMul a (aluAdd b c) = aluAdd (aluMul a b) (aluMul a c)

/-! ### The instructions: where each completes, and its result -/

/-- 41_arithmetic.md R76: ADD completes whenever its operands are there. -/
def Obligations.AddWritesWrappedSum : Prop :=
  ∀ (s : State) (m1 m2 : Mode) (v1 v2 : Word) (d : Nat),
    s.SourceValue 1 m1 v1 → s.SourceValue 2 m2 v2 → s.Destination 3 d →
    exec (.add m1 m2) s =
      .next { s with
        mem := s.mem.write d (BitVec.ofInt 64 (v1.toInt + v2.toInt)), ip := s.ip + 4 }

/-- 41_arithmetic.md R77: MUL completes whenever its operands are there. -/
def Obligations.MulWritesWrappedProduct : Prop :=
  ∀ (s : State) (m1 m2 : Mode) (v1 v2 : Word) (d : Nat),
    s.SourceValue 1 m1 v1 → s.SourceValue 2 m2 v2 → s.Destination 3 d →
    exec (.mul m1 m2) s =
      .next { s with
        mem := s.mem.write d (BitVec.ofInt 64 (v1.toInt * v2.toInt)), ip := s.ip + 4 }

/-- 42_io.md R81: a waiting IN with a good destination completes when a value is offered. -/
def Obligations.InTakesOfferedValue : Prop :=
  ∀ (s : State) (d : Nat), s.Destination 1 d → s.wait = .input → s.pins.inValid = true →
    exec .inp s =
      .next { s with
        mem := s.mem.write d s.pins.inData
        ip := s.ip + 2
        wait := .idle
        inputsTaken := s.inputsTaken ++ [s.pins.inData] }

/-- 42_io.md R82, R83: an IN with a good destination first sets WAIT, whatever is offered, and waits
while nothing is offered; one with a bad destination faults, waiting or not. That a wait begins in a
step of its own is the model's reading of R82 (log 7). -/
def Obligations.InWaitsForAnOffer : Prop :=
  ∀ s : State,
    (∀ d, s.Destination 1 d → s.wait ≠ .input → exec .inp s = .next { s with wait := .input }) ∧
    (∀ d, s.Destination 1 d → s.wait = .input → s.pins.inValid = false → exec .inp s = .next s) ∧
    (s.msize.toNat ≤ s.ip.toNat + 1 →
      exec .inp s = .next (s.takeFault .badAddress (BitVec.ofNat 64 (s.ip.toNat + 1)))) ∧
    (∀ p, s.operandWord 1 = .ok p → s.valid p = false →
      exec .inp s = .next (s.takeFault .badAddress p))

/-- 42_io.md R84: a waiting OUT whose operand has a value completes when the host accepts. -/
def Obligations.OutEmitsItsOperand : Prop :=
  ∀ (s : State) (m1 : Mode) (v : Word), s.SourceValue 1 m1 v → s.wait = .output →
    s.pins.outReady = true →
    exec (.out m1) s =
      .next { s with ip := s.ip + 2, wait := .idle, outputs := s.outputs ++ [v] }

/-- 42_io.md R84, R85: an OUT whose operand has a value first sets WAIT and waits until the host
accepts; its defects fault in order. That a wait begins in a step of its own is the model's reading
of R85 (log 7). -/
def Obligations.OutWaitsForAcceptance : Prop :=
  ∀ (s : State) (m1 : Mode),
    (∀ v, s.SourceValue 1 m1 v → s.wait ≠ .output →
      exec (.out m1) s = .next { s with wait := .output }) ∧
    (∀ v, s.SourceValue 1 m1 v → s.wait = .output → s.pins.outReady = false →
      exec (.out m1) s = .next s) ∧
    (∀ d, m1 = .undefined d →
      exec (.out m1) s = .next (s.takeFault .invalidMode (BitVec.ofNat 64 d))) ∧
    ((m1 = .position ∨ m1 = .immediate) → s.msize.toNat ≤ s.ip.toNat + 1 →
      exec (.out m1) s = .next (s.takeFault .badAddress (BitVec.ofNat 64 (s.ip.toNat + 1)))) ∧
    (∀ p, m1 = .position → s.operandWord 1 = .ok p → s.valid p = false →
      exec (.out m1) s = .next (s.takeFault .badAddress p))

/-- 40_cycle_and_control.md R70 (decision D12 for `ip`): HALT, under any word whose low two digits
are 99, ends the run and advances by 1, in the last cell to `ip = N`; the result is `M[0]`. -/
def Obligations.HaltEndsTheRun : Prop :=
  ∀ s : State,
    exec .halt s = .next { s with status := .halted, haltKind := false, ip := s.ip + 1 } ∧
    (∀ w : Word, 0 ≤ w.toInt → w.toInt % 100 = 99 → decode w = .halt) ∧
    encode .halt = 99 ∧
    (s.ip.toNat + 1 = s.msize.toNat → s.ip + 1 = s.msize) ∧
    ∀ t, exec .halt s = .next t → t.result = s.mem.read 0

/-- 43_reserved_and_invalid.md R88. -/
def Obligations.DivRaisesInvalidOpcode : Prop :=
  ∀ s : State,
    exec .div s =
      .next { s with
        status := .faulted, faultCode := .invalidOpcode, faultPc := s.ip, faultValue := 50
        wait := .idle } ∧
    ∀ w : Word, 0 ≤ w.toInt → w.toInt % 100 = 50 → decode w = .div

/-- 43_reserved_and_invalid.md R89. -/
def Obligations.JgeRaisesInvalidOpcode : Prop :=
  ∀ s : State,
    exec .jge s =
      .next { s with
        status := .faulted, faultCode := .invalidOpcode, faultPc := s.ip, faultValue := 60
        wait := .idle } ∧
    ∀ w : Word, 0 ≤ w.toInt → w.toInt % 100 = 60 → decode w = .jge

/-- 43_reserved_and_invalid.md R90 (decision D6 for negative words). -/
def Obligations.InvalidRaisesInvalidOpcode : Prop :=
  ∀ s : State,
    (∀ opc : Int, exec (.invalid opc) s =
      .next { s with
        status := .faulted, faultCode := .invalidOpcode, faultPc := s.ip
        faultValue := BitVec.ofInt 64 opc, wait := .idle }) ∧
    ∀ w : Word,
      Int.tmod w.toInt 100 ∉ ([1, 2, 3, 4, 50, 60, 99] : List Int) →
      decode w = .invalid (Int.tmod w.toInt 100)

/-! ### Frames -/

/-- What ADD and MUL leave unchanged: of memory all but the destination cell, of the registers all
but `ip`; a fault entry changes what R93 says and nothing else. -/
def Obligations.AluFrame : Prop :=
  ∀ (s t : State) (i : Instr) (m1 m2 : Mode), i = .add m1 m2 ∨ i = .mul m1 m2 →
    exec i s = .next t →
    t.msize = s.msize ∧ t.inputsTaken = s.inputsTaken ∧ t.outputs = s.outputs ∧
    t.inReset = s.inReset ∧ t.host = s.host ∧ t.haltKind = s.haltKind ∧
    ((s.sameStatusRegs t ∧ t.wait = s.wait) ∨ s.enteredFault t) ∧
    (∀ d, s.writeOperand 3 = .ok d → ∀ a, a ≠ d → t.mem.read a = s.mem.read a) ∧
    ((∀ d, s.writeOperand 3 ≠ .ok d) → ∀ a, t.mem.read a = s.mem.read a) ∧
    (s.enteredFault t → ∀ a, t.mem.read a = s.mem.read a)

/-- What IN leaves unchanged: of memory all but the destination cell; it touches no status register
but WAIT, and no output; while it waits it changes nothing else; a fault entry changes what R93
says. -/
def Obligations.InFrame : Prop :=
  ∀ s t : State, exec .inp s = .next t →
    t.msize = s.msize ∧ t.outputs = s.outputs ∧ t.inReset = s.inReset ∧ t.host = s.host ∧
    t.haltKind = s.haltKind ∧ (s.sameStatusRegs t ∨ s.enteredFault t) ∧
    (∀ d, s.writeOperand 1 = .ok d → ∀ a, a ≠ d → t.mem.read a = s.mem.read a) ∧
    ((∀ d, s.writeOperand 1 ≠ .ok d) → ∀ a, t.mem.read a = s.mem.read a) ∧
    (t.wait ≠ .idle → t = { s with wait := .input }) ∧
    (s.enteredFault t → t.inputsTaken = s.inputsTaken ∧ ∀ a, t.mem.read a = s.mem.read a)

/-- What the instructions that store nothing leave unchanged: all of memory, N and the input
history; OUT alone may write `outputs` and WAIT, HALT alone STATUS and HALT_KIND without a fault. -/
def Obligations.NonStoringFrame : Prop :=
  ∀ (s t : State) (i : Instr), exec i s = .next t →
    (∃ m1, i = .out m1) ∨ i = .halt ∨ i = .div ∨ i = .jge ∨ (∃ opc, i = .invalid opc) →
    (∀ a, t.mem.read a = s.mem.read a) ∧
    t.msize = s.msize ∧ t.inputsTaken = s.inputsTaken ∧ t.inReset = s.inReset ∧
    t.host = s.host ∧
    ((∃ m1, i = .out m1) →
      t.haltKind = s.haltKind ∧ (s.sameStatusRegs t ∨ s.enteredFault t) ∧
      (s.enteredFault t → t.outputs = s.outputs)) ∧
    (i = .halt →
      t.outputs = s.outputs ∧ t.faultCode = s.faultCode ∧ t.faultPc = s.faultPc ∧
      t.faultValue = s.faultValue ∧ t.wait = s.wait) ∧
    (i = .div ∨ i = .jge ∨ (∃ opc, i = .invalid opc) → s.enteredFault t)

/-! ### Faults -/

/-- 60_exceptions.md R93: fault entry, as the one operation that every raise applies, and that an
instruction which ends Faulted has done nothing else, whatever the instruction. -/
def Obligations.FaultEntryChangesNothingElse : Prop :=
  (∀ (s : State) (c : FaultCode) (v : Word),
    s.takeFault c v =
      { s with
        status := .faulted, faultCode := c, faultPc := s.ip, faultValue := v, wait := .idle }) ∧
  ∀ (i : Instr) (s t : State), s.status ≠ .faulted → exec i s = .next t → t.status = .faulted →
    t.faultCode ≠ .noFault ∧
    t = { s with
          status := .faulted, faultCode := t.faultCode, faultPc := s.ip
          faultValue := t.faultValue, wait := .idle } ∧
    (s.Inv → s.status = .running → t.haltKind = false)

/-- 60_exceptions.md R94 (the spec's inference): which instruction raises which fault, with what
FAULT_VALUE. -/
def Obligations.EachInstructionRaisesItsFaults : Prop :=
  ∀ (i : Instr) (s t : State), s.status ≠ .faulted → s.sizeLegal = true →
    s.ip.toNat < s.msize.toNat → i.wf = true → exec i s = .next t → t.status = .faulted →
    (∀ m1 m2, i = .add m1 m2 ∨ i = .mul m1 m2 →
      (t.faultCode = .badAddress ∧ s.valid t.faultValue = false) ∨
      (t.faultCode = .invalidMode ∧ 2 ≤ t.faultValue.toNat ∧ t.faultValue.toNat ≤ 9 ∧
        (m1 = .undefined t.faultValue.toNat ∨ m2 = .undefined t.faultValue.toNat))) ∧
    (i = .inp → t.faultCode = .badAddress ∧ s.valid t.faultValue = false) ∧
    (∀ m1, i = .out m1 →
      (t.faultCode = .badAddress ∧ s.valid t.faultValue = false) ∨
      (t.faultCode = .invalidMode ∧ 2 ≤ t.faultValue.toNat ∧ t.faultValue.toNat ≤ 9 ∧
        m1 = .undefined t.faultValue.toNat)) ∧
    i ≠ .halt ∧
    (i.valid = false → t.faultCode = .invalidOpcode ∧ t.faultValue.toInt = i.opcode)

/-! ### The step -/

/-- 40_cycle_and_control.md R66: a step of a Running core runs the instruction that the word at `ip`
decodes to. Around `exec` a step only lets the host go on (log 5). -/
def Obligations.StepRunsDecodedInstruction : Prop :=
  ∀ (s : State) (w : Word) (i : Instr), s.ready → s.ip.toNat < s.msize.toNat →
    s.mem.read s.ip.toNat = some w → decode w = i →
    (∀ t, exec i s = .next t → step s = .next { t with host := s.host.tail }) ∧
    (∀ r, exec i s = .refused r → step s = .refused r)

/-- 40_cycle_and_control.md R71 (decision D13 for HALT_KIND): boundary termination. -/
def Obligations.BoundaryEndsTheRun : Prop :=
  ∀ s : State, s.ready → s.msize.toNat ≤ s.ip.toNat →
    step s = .next { s with status := .halted, haltKind := true, host := s.host.tail } ∧
    ∀ t, step s = .next t → t.result = s.mem.read 0

/-- 40_cycle_and_control.md R73: a terminal core keeps all it has until reset. -/
def Obligations.TerminalStatesHold : Prop :=
  ∀ s : State, s.Inv → s.status = .halted ∨ s.status = .faulted → s.inReset = false →
    s.inReady = false ∧ s.outValid = false ∧
    (s.pins.rst = false → step s = .next { s with host := s.host.tail })

/-- 40_cycle_and_control.md R65 (with R70, R71 and 60_exceptions.md R93): the initial state is Running
at `ip = 0`, and every change of STATUS is one of these. That STATUS stays as it was at an edge with
`rst = 1` and turns Running at the release edge alone is the model's reading (log 8). -/
def Obligations.StatusChangesAreTheseOnly : Prop :=
  (State.reset.status = .running ∧ State.reset.ip = 0) ∧
  ∀ s t : State, step s = .next t → t.status ≠ s.status →
    (s.status = .running ∧ s.pins.rst = false ∧ t.status = .halted ∧
      ((s.ip.toNat < s.msize.toNat ∧ t.haltKind = false ∧
          ∃ w, s.mem.read s.ip.toNat = some w ∧ decode w = .halt) ∨
        (s.msize.toNat ≤ s.ip.toNat ∧ t.haltKind = true))) ∨
    (s.status = .running ∧ s.pins.rst = false ∧ t.status = .faulted ∧
      t.faultCode ≠ .noFault ∧ t.faultPc = s.ip) ∨
    (s.pins.rst = false ∧ s.inReset = true ∧ t.status = .running)

/-- 70_reset_and_hazards.md R110 and 10_state.md R15: where a step has no meaning, by the model's
refusals (logs 2, 3, 10), and where the machine is stuck (log 9). -/
def Obligations.StepsWithoutMeaningStop : Prop :=
  ∀ s : State, s.inReset = false → s.pins.rst = false →
    (s.status = .running → s.sizeLegal = false → step s = .refused .sizeNotLoaded) ∧
    (s.ready → s.ip.toNat < s.msize.toNat → s.mem.read s.ip.toNat = none →
      step s = .refused (.unloadedCell s.ip.toNat)) ∧
    (s.status = .reserved → step s = .fault .stuckStatus)

/-- 20_memory.md R43 and 70_reset_and_hazards.md R116 (the spec's inference): an ADD or MUL that
writes the next instruction word chooses the next instruction. -/
def Obligations.NextFetchSeesTheWrite : Prop :=
  ∀ (s : State) (w : Word) (m1 m2 : Mode) (v1 v2 : Word) (op : Int),
    s.ready → s.ip.toNat < s.msize.toNat → s.mem.read s.ip.toNat = some w →
    (decode w = .add m1 m2 ∧ op = v1.toInt + v2.toInt) ∨
      (decode w = .mul m1 m2 ∧ op = v1.toInt * v2.toInt) →
    s.SourceValue 1 m1 v1 → s.SourceValue 2 m2 v2 → s.Destination 3 (s.ip.toNat + 4) →
    s.popHost.pins.rst = false →
    ∀ t u : State,
      t = { s with
            mem := s.mem.write (s.ip.toNat + 4) (BitVec.ofInt 64 op), ip := s.ip + 4
            host := s.host.tail } →
      exec (decode (BitVec.ofInt 64 op)) t = .next u →
      steps 2 s = .next { u with host := s.host.tail.tail }

/-- 41_arithmetic.md R79 (the spec's inference): of either read operand of an ADD or MUL, position
mode and the immediate of the same value give the same cell and the same `ip`, where the other operand
does not itself look at the replaced operand word. -/
def Obligations.PositionAndImmediateAgree : Prop :=
  ∀ (s : State) (m : Mode) (v1 v2 : Word) (d : Nat), s.Destination 3 d →
    (s.SourceValue 1 .position v1 → s.SourceValue 2 m v2 →
      ∀ s' : State, s' = { s with mem := s.mem.write (s.ip.toNat + 1) v1 } →
        s'.SourceValue 2 m v2 →
        agreeAt d (BitVec.ofInt 64 (v1.toInt + v2.toInt))
          (exec (.add .position m) s) (exec (.add .immediate m) s') ∧
        agreeAt d (BitVec.ofInt 64 (v1.toInt * v2.toInt))
          (exec (.mul .position m) s) (exec (.mul .immediate m) s')) ∧
    (s.SourceValue 1 m v1 → s.SourceValue 2 .position v2 →
      ∀ s' : State, s' = { s with mem := s.mem.write (s.ip.toNat + 2) v2 } →
        s'.SourceValue 1 m v1 →
        agreeAt d (BitVec.ofInt 64 (v1.toInt + v2.toInt))
          (exec (.add m .position) s) (exec (.add m .immediate) s') ∧
        agreeAt d (BitVec.ofInt 64 (v1.toInt * v2.toInt))
          (exec (.mul m .position) s) (exec (.mul m .immediate) s'))

/-- 10_state.md R23 (the spec's inference): what an instruction does to memory, `ip`, WAIT and the
streams does not depend on the status and fault registers, nor on the stream histories. -/
def Obligations.InstructionsSeeOnlyMemoryAndPorts : Prop :=
  ∀ (i : Instr) (s t : State), s.sameView t →
    (∀ r, exec i s = .refused r → exec i t = .refused r) ∧
    ∀ s', exec i s = .next s' →
      ∃ t', exec i t = .next t' ∧
        s'.mem = t'.mem ∧ s'.msize = t'.msize ∧ s'.ip = t'.ip ∧ s'.wait = t'.wait ∧
        (∃ xs, s'.inputsTaken = s.inputsTaken ++ xs ∧ t'.inputsTaken = t.inputsTaken ++ xs) ∧
        (∃ ys, s'.outputs = s.outputs ++ ys ∧ t'.outputs = t.outputs ++ ys)

/-! ### Streams and ports -/

/-- 10_state.md R25 and 42_io.md R86: outside the release of reset a stream grows by one value
exactly at a step where both its ready and its valid are 1. That the histories stay as they were at an
edge with `rst = 1` too is the model's reading (log 8). -/
def Obligations.TransfersFollowTheHandshake : Prop :=
  ∀ s t : State, s.Inv → s.inReset = false → step s = .next t →
    (s.inReady = true ∧ s.pins.inValid = true →
      t.inputsTaken = s.inputsTaken ++ [s.pins.inData]) ∧
    (¬(s.inReady = true ∧ s.pins.inValid = true) → t.inputsTaken = s.inputsTaken) ∧
    (s.outValid = true ∧ s.pins.outReady = true →
      ∃ v, s.outData = some v ∧ t.outputs = s.outputs ++ [v]) ∧
    (¬(s.outValid = true ∧ s.pins.outReady = true) → t.outputs = s.outputs)

/-- 42_io.md R85: `out_data` stays what it is while the host does not accept. -/
def Obligations.OfferedOutputIsStable : Prop :=
  ∀ s t : State, s.Inv → s.outValid = true → s.pins.outReady = false → step s = .next t →
    t.wait = .output ∧ t.offeredValue = s.offeredValue ∧ s.outData = s.offeredValue ∧
    (s.outData).isSome = true

/-- 10_state.md R20: RESULT. -/
def Obligations.ResultIsCellZeroWhenHalted : Prop :=
  ∀ s : State,
    (s.resultValid = true ↔ s.status = .halted) ∧
    (s.status = .halted → s.result = s.mem.read 0) ∧
    (s.status ≠ .halted → s.result = none) ∧
    ∀ t, s.status = .halted → s.inReset = false → s.pins.rst = false → step s = .next t →
      t.result = s.result

/-- 10_state.md R15, R16, R17: the values the status ports show. -/
def Obligations.StatusPortsShowTheCodes : Prop :=
  ∀ s : State, s.Inv →
    (s.status = .running → s.statusPort = 0b00#2) ∧ (s.status = .halted → s.statusPort = 0b01#2) ∧
    (s.status = .faulted → s.statusPort = 0b10#2) ∧ s.statusPort ≠ 0b11#2 ∧
    (s.status ≠ .halted → s.haltKindPort = 0b0#1) ∧
    (s.haltKindPort = 0b1#1 ↔ s.haltKind = true) ∧
    (s.faultCode = .badAddress → s.faultCodePort = 0b01#2) ∧
    (s.faultCode = .invalidOpcode → s.faultCodePort = 0b10#2) ∧
    (s.faultCode = .invalidMode → s.faultCodePort = 0b11#2) ∧
    (s.faultCodePort ≠ 0b00#2 ↔ s.statusPort = 0b10#2)

/-- 30_encoding.md R64 (decision D20): the inspection port at a valid address of a loaded cell. -/
def Obligations.InspectionDescribesTheWord : Prop :=
  ∀ (s : State) (a w : Word), s.sizeLegal = true → a.toNat < s.msize.toNat →
    s.mem.read a.toNat = some w →
    s.inspOk a = true ∧
    ∃ x, s.inspect a = some x ∧ x.word = w ∧ x.opc.toInt = (decodeFields w).opc ∧
      x.modes = ((decodeFields w).m1, (decodeFields w).m2, (decodeFields w).m3) ∧
      ((decodeFields w).opc = 1 → x.name.code = 0 ∧ x.count = 3) ∧
      ((decodeFields w).opc = 2 → x.name.code = 1 ∧ x.count = 3) ∧
      ((decodeFields w).opc = 3 → x.name.code = 2 ∧ x.count = 1) ∧
      ((decodeFields w).opc = 4 → x.name.code = 3 ∧ x.count = 1) ∧
      ((decodeFields w).opc = 99 → x.name.code = 4 ∧ x.count = 0) ∧
      ((decodeFields w).opc = 50 → x.name.code = 5 ∧ x.count = Config.inspArityDiv.val) ∧
      ((decodeFields w).opc = 60 → x.name.code = 6 ∧ x.count = Config.inspArityJge.val) ∧
      ((decodeFields w).opc ∉ ([1, 2, 3, 4, 99, 50, 60] : List Int) →
        x.name.code = 7 ∧ x.count = 0) ∧
      (x.opnd1.ok = true ↔ 1 ≤ x.count ∧ a.toNat + 1 < s.msize.toNat) ∧
      (x.opnd2.ok = true ↔ 2 ≤ x.count ∧ a.toNat + 2 < s.msize.toNat) ∧
      (x.opnd3.ok = true ↔ 3 ≤ x.count ∧ a.toNat + 3 < s.msize.toNat) ∧
      (x.opnd1.ok = true → x.opnd1.value = s.mem.read (a.toNat + 1)) ∧
      (x.opnd2.ok = true → x.opnd2.value = s.mem.read (a.toNat + 2)) ∧
      (x.opnd3.ok = true → x.opnd3.value = s.mem.read (a.toNat + 3)) ∧
      x.next.toNat = a.toNat + 1 + x.count

/-- 60_exceptions.md R106: what a fault report of a loaded word holds: the address, the inspection of
FAULT_PC with the instruction's name and its operand words, and the reason. -/
def Obligations.FaultReportNamesTheInstruction : Prop :=
  ∀ (s : State) (w : Word), s.Inv → s.status = .faulted → s.sizeLegal = true →
    s.ip.toNat < s.msize.toNat → s.mem.read s.ip.toNat = some w →
    ∃ r x, s.faultReport = some r ∧ r.address = s.ip ∧ r.code = s.faultCode ∧
      r.value = s.faultValue ∧ r.instruction = s.inspect s.ip ∧ r.instruction = some x ∧
      x.word = w ∧ x.name = opName (decode w) ∧ x.count = inspCount (decode w) ∧
      (x.opnd1.ok = true ↔ 1 ≤ x.count ∧ s.ip.toNat + 1 < s.msize.toNat) ∧
      (x.opnd2.ok = true ↔ 2 ≤ x.count ∧ s.ip.toNat + 2 < s.msize.toNat) ∧
      (x.opnd3.ok = true ↔ 3 ≤ x.count ∧ s.ip.toNat + 3 < s.msize.toNat) ∧
      (x.opnd1.ok = true → x.opnd1.value = s.mem.read (s.ip.toNat + 1)) ∧
      (x.opnd2.ok = true → x.opnd2.value = s.mem.read (s.ip.toNat + 2)) ∧
      (x.opnd3.ok = true → x.opnd3.value = s.mem.read (s.ip.toNat + 3)) ∧
      (s.faultCode = .badAddress → r.reason = "bad position") ∧
      (s.faultCode = .invalidOpcode → r.reason = "wrong opcode") ∧
      (s.faultCode = .invalidMode → r.reason = "bad mode")

/-- 20_memory.md R40 and 30_encoding.md R64 (decision D19): when the host's read of memory and its
inspection have a meaning, and what they then show. No value is the model's none (log 12). -/
def Obligations.HostReadsInResetOrTerminal : Prop :=
  ∀ s : State,
    (s.pins.rst = true ∨ s.status = .halted ∨ s.status = .faulted →
      s.pins.rdAddr.toNat < s.msize.toNat → s.rdData = s.mem.read s.pins.rdAddr.toNat) ∧
    (s.pins.rst = true ∨ s.status = .halted ∨ s.status = .faulted →
      s.inspPort = some (s.inspOk s.pins.inspAddr, s.inspect s.pins.inspAddr) ∧
      (s.inspOk s.pins.inspAddr = true ↔
        0 ≤ s.pins.inspAddr.toInt ∧ s.pins.inspAddr.toInt < s.msize.toNat)) ∧
    (s.msize.toNat ≤ s.pins.rdAddr.toNat → s.rdData = none) ∧
    (s.pins.rst = false → s.status = .running → s.rdData = none ∧ s.inspPort = none)

/-! ### Reset and loading -/

/-- 70_reset_and_hazards.md R107, R108: an edge with `rst = 1`. That the other registers keep their
values until the release is the model's reading (log 8). -/
def Obligations.ResetEdgeLoadsAndDropsTheWait : Prop :=
  ∀ s : State, s.pins.rst = true →
    s.inReady = false ∧ s.outValid = false ∧
    step s = .next { s with
      mem :=
        if s.pins.ldWe = true ∧ s.pins.ldAddr.toNat < Config.memCapacity then
          s.mem.write s.pins.ldAddr.toNat s.pins.ldData
        else s.mem
      msize := if s.pins.ldSizeWe = true then s.pins.ldSize else s.msize
      wait := .idle
      inReset := true
      host := s.host.tail }

/-- 10_state.md R27, 70_reset_and_hazards.md R107, R110: the release edge. The refusal of another size
is the model's (log 10). -/
def Obligations.ReleaseSetsTheResetValues : Prop :=
  ∀ s : State, s.pins.rst = false → s.inReset = true →
    (1 ≤ s.msize.toNat → s.msize.toNat < 2 ^ 63 → s.msize.toNat ≤ Config.memCapacity →
      step s = .next
        { mem := s.mem, msize := s.msize, ip := 0, status := .running, haltKind := false
          faultCode := .noFault, faultPc := 0, faultValue := 0, wait := .idle
          inputsTaken := [], outputs := [], inReset := false, host := s.host.tail }) ∧
    (¬(1 ≤ s.msize.toNat ∧ s.msize.toNat < 2 ^ 63 ∧ s.msize.toNat ≤ Config.memCapacity) →
      step s = .refused .sizeNotLoaded)

/-- 70_reset_and_hazards.md R111, R112 (decision D22): a reset pulse without loads, in any state,
restarts from whatever memory holds, and takes no input and emits no output. -/
def Obligations.ResetPulseRestartsFromMemory : Prop :=
  ∀ (s : State) (p q : Pins) (rest : List Pins), s.host = p :: q :: rest → p.rst = true →
    p.ldWe = false → p.ldSizeWe = false → q.rst = false → s.sizeLegal = true →
    s.msize.toNat ≤ Config.memCapacity →
    steps 2 s = .next
      { mem := s.mem, msize := s.msize, ip := 0, status := .running, haltKind := false
        faultCode := .noFault, faultPc := 0, faultValue := 0, wait := .idle
        inputsTaken := [], outputs := [], inReset := false, host := rest }

/-- 70_reset_and_hazards.md R108: a host that loads an image through the ports and releases `rst`
finds it in memory, cell for cell, with N its length and the core at `ip = 0`. The sequence of the
load is the model's (log 4), and so is the host list that drives it (log 5). -/
def Obligations.LoadedImageStandsInMemory : Prop :=
  ∀ (s : State) (image : List Word) (rest : List Pins),
    1 ≤ image.length → image.length < 2 ^ 63 → image.length ≤ Config.memCapacity →
    s.host = loadDrives image ++ rest →
    ∃ t, steps (image.length + 2) s = .next t ∧
      t.msize.toNat = image.length ∧
      (∀ (i : Nat) (h : i < image.length), t.mem.read i = some image[i]) ∧
      (∀ a, image.length ≤ a → t.mem.read a = s.mem.read a) ∧
      t.ip = 0 ∧ t.status = .running ∧ t.haltKind = false ∧ t.faultCode = .noFault ∧
      t.faultPc = 0 ∧ t.faultValue = 0 ∧ t.wait = .idle ∧ t.inputsTaken = [] ∧
      t.outputs = [] ∧ t.inReset = false ∧ t.host = rest

/-- The model's `withFetchWord` (log 4): the next step runs the placed instruction. -/
def Obligations.PlacedInstructionRunsNext : Prop :=
  ∀ (s t : State) (nbits w : Nat) (i : Instr), s.ip.toNat + 4 < 2 ^ 63 →
    decodeTableWord nbits w = some i → exec i (s.withFetchWord nbits w) = .next t →
    step (s.withFetchWord nbits w) = .next t.popHost

/-! ### Invariants and whole runs -/

/-- Reset establishes the invariant. -/
def Obligations.ResetMeetsTheInvariant : Prop := State.reset.Inv

/-- Every step keeps the invariant: canonical memory, `ip <= N`, a legal STATUS, and the status, fault
and wait registers consistent with it (10_state.md R14 to R21, 40_cycle_and_control.md R69). -/
def Obligations.StepKeepsTheInvariant : Prop :=
  ∀ s t : State, s.Inv → step s = .next t → t.Inv

/-- 20_memory.md R36 and 70_reset_and_hazards.md R115: outside reset no step changes N, and none
lowers `ip`. -/
def Obligations.SizeIsFixedAndIpNeverFalls : Prop :=
  ∀ s t : State, s.pins.rst = false → s.inReset = false → step s = .next t →
    t.msize = s.msize ∧ s.ip.toNat ≤ t.ip.toNat ∧ t.inReset = false

/-- 70_reset_and_hazards.md R115 (the spec's inference): a run that never waits ends within N + 1
steps. In the model every IN or OUT that reaches its transfer waits (log 7), so a run with a transfer
is not one of these; `RunWithEagerHostEnds` covers it. -/
def Obligations.RunWithoutWaitEnds : Prop :=
  ∀ s : State, s.Inv → s.status = .running → s.inReset = false → s.sizeLegal = true →
    s.fullyLoaded → s.noReset →
    (∀ k t, k ≤ s.msize.toNat + 1 → steps k s = .next t → t.wait = .idle) →
    ∃ k t, k ≤ s.msize.toNat + 1 ∧ steps k s = .next t ∧ t.runOver = true

/-- 70_reset_and_hazards.md R119: with a host that always offers input and accepts output, a run ends.
The bound counts the model's steps, in which a transfer takes two (log 7). -/
def Obligations.RunWithEagerHostEnds : Prop :=
  ∀ s : State, s.Inv → s.status = .running → s.inReset = false → s.sizeLegal = true →
    s.fullyLoaded → s.noReset → s.eagerFor (s.msize.toNat + 1) →
    ∃ k t, k ≤ s.msize.toNat + 1 ∧ steps k s = .next t ∧ t.runOver = true

/-- 42_io.md R87: an IN that the host never feeds, and an OUT that the host never accepts, wait forever:
the run neither halts nor faults, and nothing of the machine changes but what the host drives. -/
def Obligations.UnansweredWaitNeverEnds : Prop :=
  ∀ (s : State) (n : Nat), s.Inv → (∀ p ∈ s.host, p.rst = false) →
    (s.wait = .input → (∀ p ∈ s.host, p.inValid = false) →
      steps n s = .next { s with host := s.host.drop n } ∧ s.status = .running) ∧
    (s.wait = .output → (∀ p ∈ s.host, p.outReady = false) →
      steps n s = .next { s with host := s.host.drop n } ∧ s.status = .running)
end

