-- ==== Sys2Proof/Laws/Decode.lean ====
section
/-! SUPPORT. Laws of the decimal decoder: `wrap64`, the ranges of the fields, modes and digits. -/

namespace Sys2Proof

/-- `wrap64` of an Int64 is that Int64 (00_scope.md R6). -/
theorem wrap64_toInt {x : Int} (lo : -2 ^ 63 ≤ x) (hi : x < 2 ^ 63) : (wrap64 x).toInt = x := by
  rw [wrap64, BitVec.toInt_ofInt]
  exact Int.bmod_eq_of_le (by omega) (by omega)

@[simp] theorem wrap64_toInt_self (w : Word) : wrap64 w.toInt = w := BitVec.ofInt_toInt

/-- `rem` of a value that is not negative is the ordinary remainder (00_scope.md R6). -/
theorem rem_of_nonneg {a : Int} (h : 0 ≤ a) (b : Int) : rem a b = a % b :=
  Int.tmod_eq_emod_of_nonneg h

/-- `quot` of a value that is not negative is floor division (00_scope.md R6). -/
theorem quot_of_nonneg {a b : Int} (h : 0 ≤ a) : quot a b = a / b :=
  Int.tdiv_eq_ediv_of_nonneg h

/-- A digit of a value that is not negative. -/
theorem digit_of_nonneg {w : Int} (h : 0 ≤ w) (j : Nat) : digit j w = w / 10 ^ j % 10 := by
  have hq : 0 ≤ w / 10 ^ j := Int.ediv_nonneg h (by positivity)
  rw [digit, quot_of_nonneg h, rem_of_nonneg hq]

/-- A decimal digit is at most 9. -/
theorem digit_toNat_le (j : Nat) (w : Int) (h : 0 ≤ w) : (digit j w).toNat ≤ 9 := by
  rw [digit_of_nonneg h]
  omega

/-- The fields of a word that is not negative. -/
theorem decodeFields_of_nonneg {w : Word} (h : 0 ≤ w.toInt) :
    decodeFields w =
      { opc := w.toInt % 100
        m1 := (w.toInt / 100 % 10).toNat
        m2 := (w.toInt / 1000 % 10).toNat
        m3 := (w.toInt / 10000 % 10).toNat } := by
  rw [decodeFields, if_pos h, rem_of_nonneg h, digit_of_nonneg h, digit_of_nonneg h,
    digit_of_nonneg h]
  norm_num

/-- The fields of a negative word: no mode digit is read (30_encoding.md R46). -/
theorem decodeFields_of_neg {w : Word} (h : w.toInt < 0) :
    decodeFields w = { opc := rem w.toInt 100, m1 := 0, m2 := 0, m3 := 0 } := by
  rw [decodeFields, if_neg (by omega)]

/-- The remainder of a negative value lies in -99..0. -/
theorem rem_of_neg {a : Int} (h : a < 0) : -99 ≤ rem a 100 ∧ rem a 100 ≤ 0 := by
  have h1 : rem a 100 = -((-a) % 100) := by
    rw [rem, ← Int.tmod_eq_emod_of_nonneg (by omega : 0 ≤ -a), Int.neg_tmod, neg_neg]
  omega

/-- The opcode lies in -99..99 (30_encoding.md R46). -/
theorem decodeFields_opc_range (w : Word) :
    -99 ≤ (decodeFields w).opc ∧ (decodeFields w).opc ≤ 99 := by
  by_cases h : 0 ≤ w.toInt
  · rw [decodeFields_of_nonneg h]
    dsimp only
    omega
  · have := rem_of_neg (a := w.toInt) (by omega)
    rw [decodeFields_of_neg (by omega)]
    dsimp only
    omega

/-- The mode digits are at most 9 (30_encoding.md R46). -/
theorem decodeFields_digits_le (w : Word) :
    (decodeFields w).m1 ≤ 9 ∧ (decodeFields w).m2 ≤ 9 ∧ (decodeFields w).m3 ≤ 9 := by
  by_cases h : 0 ≤ w.toInt
  · rw [decodeFields_of_nonneg h]
    dsimp only
    omega
  · rw [decodeFields_of_neg (by omega)]
    exact ⟨Nat.zero_le _, Nat.zero_le _, Nat.zero_le _⟩

/-- A digit selects a well-formed mode. -/
theorem Mode.wf_ofDigit {d : Nat} (h : d ≤ 9) : (Mode.ofDigit d).wf = true := by
  simp only [Mode.ofDigit]
  split
  · rfl
  · split
    · rfl
    · simp only [Mode.wf, decide_eq_true_eq]
      omega

/-- The digit of a well-formed mode selects it. -/
theorem Mode.ofDigit_digit {m : Mode} (h : m.wf = true) : Mode.ofDigit m.digit = m := by
  cases m with
  | position => rfl
  | immediate => rfl
  | undefined d =>
    simp only [Mode.wf, decide_eq_true_eq] at h
    have h0 : d ≠ 0 := by omega
    have h1 : d ≠ 1 := by omega
    simp [Mode.ofDigit, Mode.digit, h0, h1]

/-- The digit of a well-formed mode is one digit. -/
theorem Mode.digit_le {m : Mode} (h : m.wf = true) : m.digit ≤ 9 := by
  cases m with
  | position => exact Nat.zero_le _
  | immediate => exact Nat.le_of_lt (by decide)
  | undefined d =>
    simp only [Mode.wf, decide_eq_true_eq] at h
    exact h.2

/-- What fields in range select is a well-formed instruction. -/
theorem Fields.wf_instr {f : Fields} (h1 : f.m1 ≤ 9) (h2 : f.m2 ≤ 9)
    (h : -99 ≤ f.opc ∧ f.opc ≤ 99) : f.instr.wf = true := by
  have w1 := Mode.wf_ofDigit h1
  have w2 := Mode.wf_ofDigit h2
  simp only [Fields.instr]
  repeat' split
  all_goals simp_all [Instr.wf, namedOpcodes]

/-- The fields of the canonical word, from its decimal form. -/
theorem decodeFields_wrap64 {opc : Int} {d1 d2 : Nat} (h0 : 0 ≤ opc) (h1 : opc ≤ 99)
    (hd1 : d1 ≤ 9) (hd2 : d2 ≤ 9) :
    decodeFields (wrap64 (opc + 100 * d1 + 1000 * d2)) =
      { opc := opc, m1 := d1, m2 := d2, m3 := 0 } := by
  have hx : (wrap64 (opc + 100 * d1 + 1000 * d2)).toInt = opc + 100 * d1 + 1000 * d2 :=
    wrap64_toInt (by omega) (by omega)
  rw [decodeFields_of_nonneg (by omega), hx, Fields.mk.injEq]
  omega

end Sys2Proof
end

