-- ==== Sys2Proof/Laws/State.lean ====
section
/-! SUPPORT. One lemma per field per update of State. -/

namespace Sys2Proof.Machine

/-! ### `State.store` -/

@[simp] theorem State.store_mem (s : State) (a : Nat) (v : Word) : (s.store a v).mem = s.mem.write a v := rfl
@[simp] theorem State.store_msize (s : State) (a : Nat) (v : Word) : (s.store a v).msize = s.msize := rfl
@[simp] theorem State.store_ip (s : State) (a : Nat) (v : Word) : (s.store a v).ip = s.ip := rfl
@[simp] theorem State.store_status (s : State) (a : Nat) (v : Word) : (s.store a v).status = s.status := rfl
@[simp] theorem State.store_haltKind (s : State) (a : Nat) (v : Word) : (s.store a v).haltKind = s.haltKind := rfl
@[simp] theorem State.store_faultCode (s : State) (a : Nat) (v : Word) : (s.store a v).faultCode = s.faultCode := rfl
@[simp] theorem State.store_faultPc (s : State) (a : Nat) (v : Word) : (s.store a v).faultPc = s.faultPc := rfl
@[simp] theorem State.store_faultValue (s : State) (a : Nat) (v : Word) : (s.store a v).faultValue = s.faultValue := rfl
@[simp] theorem State.store_wait (s : State) (a : Nat) (v : Word) : (s.store a v).wait = s.wait := rfl
@[simp] theorem State.store_inputsTaken (s : State) (a : Nat) (v : Word) : (s.store a v).inputsTaken = s.inputsTaken := rfl
@[simp] theorem State.store_outputs (s : State) (a : Nat) (v : Word) : (s.store a v).outputs = s.outputs := rfl
@[simp] theorem State.store_inReset (s : State) (a : Nat) (v : Word) : (s.store a v).inReset = s.inReset := rfl
@[simp] theorem State.store_host (s : State) (a : Nat) (v : Word) : (s.store a v).host = s.host := rfl

/-! ### `State.advance` -/

@[simp] theorem State.advance_mem (s : State) (n : Nat) : (s.advance n).mem = s.mem := rfl
@[simp] theorem State.advance_msize (s : State) (n : Nat) : (s.advance n).msize = s.msize := rfl
@[simp] theorem State.advance_ip (s : State) (n : Nat) : (s.advance n).ip = s.ip + BitVec.ofNat 64 n := rfl
@[simp] theorem State.advance_status (s : State) (n : Nat) : (s.advance n).status = s.status := rfl
@[simp] theorem State.advance_haltKind (s : State) (n : Nat) : (s.advance n).haltKind = s.haltKind := rfl
@[simp] theorem State.advance_faultCode (s : State) (n : Nat) : (s.advance n).faultCode = s.faultCode := rfl
@[simp] theorem State.advance_faultPc (s : State) (n : Nat) : (s.advance n).faultPc = s.faultPc := rfl
@[simp] theorem State.advance_faultValue (s : State) (n : Nat) : (s.advance n).faultValue = s.faultValue := rfl
@[simp] theorem State.advance_wait (s : State) (n : Nat) : (s.advance n).wait = s.wait := rfl
@[simp] theorem State.advance_inputsTaken (s : State) (n : Nat) : (s.advance n).inputsTaken = s.inputsTaken := rfl
@[simp] theorem State.advance_outputs (s : State) (n : Nat) : (s.advance n).outputs = s.outputs := rfl
@[simp] theorem State.advance_inReset (s : State) (n : Nat) : (s.advance n).inReset = s.inReset := rfl
@[simp] theorem State.advance_host (s : State) (n : Nat) : (s.advance n).host = s.host := rfl

/-! ### `State.takeFault` -/

@[simp] theorem State.takeFault_mem (s : State) (c : FaultCode) (v : Word) : (s.takeFault c v).mem = s.mem := rfl
@[simp] theorem State.takeFault_msize (s : State) (c : FaultCode) (v : Word) : (s.takeFault c v).msize = s.msize := rfl
@[simp] theorem State.takeFault_ip (s : State) (c : FaultCode) (v : Word) : (s.takeFault c v).ip = s.ip := rfl
@[simp] theorem State.takeFault_status (s : State) (c : FaultCode) (v : Word) : (s.takeFault c v).status = .faulted := rfl
@[simp] theorem State.takeFault_haltKind (s : State) (c : FaultCode) (v : Word) : (s.takeFault c v).haltKind = s.haltKind := rfl
@[simp] theorem State.takeFault_faultCode (s : State) (c : FaultCode) (v : Word) : (s.takeFault c v).faultCode = c := rfl
@[simp] theorem State.takeFault_faultPc (s : State) (c : FaultCode) (v : Word) : (s.takeFault c v).faultPc = s.ip := rfl
@[simp] theorem State.takeFault_faultValue (s : State) (c : FaultCode) (v : Word) : (s.takeFault c v).faultValue = v := rfl
@[simp] theorem State.takeFault_wait (s : State) (c : FaultCode) (v : Word) : (s.takeFault c v).wait = .idle := rfl
@[simp] theorem State.takeFault_inputsTaken (s : State) (c : FaultCode) (v : Word) : (s.takeFault c v).inputsTaken = s.inputsTaken := rfl
@[simp] theorem State.takeFault_outputs (s : State) (c : FaultCode) (v : Word) : (s.takeFault c v).outputs = s.outputs := rfl
@[simp] theorem State.takeFault_inReset (s : State) (c : FaultCode) (v : Word) : (s.takeFault c v).inReset = s.inReset := rfl
@[simp] theorem State.takeFault_host (s : State) (c : FaultCode) (v : Word) : (s.takeFault c v).host = s.host := rfl

/-! ### `State.halt` -/

@[simp] theorem State.halt_mem (s : State) (b : Bool) : (s.halt b).mem = s.mem := rfl
@[simp] theorem State.halt_msize (s : State) (b : Bool) : (s.halt b).msize = s.msize := rfl
@[simp] theorem State.halt_ip (s : State) (b : Bool) : (s.halt b).ip = s.ip := rfl
@[simp] theorem State.halt_status (s : State) (b : Bool) : (s.halt b).status = .halted := rfl
@[simp] theorem State.halt_haltKind (s : State) (b : Bool) : (s.halt b).haltKind = b := rfl
@[simp] theorem State.halt_faultCode (s : State) (b : Bool) : (s.halt b).faultCode = s.faultCode := rfl
@[simp] theorem State.halt_faultPc (s : State) (b : Bool) : (s.halt b).faultPc = s.faultPc := rfl
@[simp] theorem State.halt_faultValue (s : State) (b : Bool) : (s.halt b).faultValue = s.faultValue := rfl
@[simp] theorem State.halt_wait (s : State) (b : Bool) : (s.halt b).wait = s.wait := rfl
@[simp] theorem State.halt_inputsTaken (s : State) (b : Bool) : (s.halt b).inputsTaken = s.inputsTaken := rfl
@[simp] theorem State.halt_outputs (s : State) (b : Bool) : (s.halt b).outputs = s.outputs := rfl
@[simp] theorem State.halt_inReset (s : State) (b : Bool) : (s.halt b).inReset = s.inReset := rfl
@[simp] theorem State.halt_host (s : State) (b : Bool) : (s.halt b).host = s.host := rfl

/-! ### `State.popHost` -/

@[simp] theorem State.popHost_mem (s : State) : (s.popHost).mem = s.mem := rfl
@[simp] theorem State.popHost_msize (s : State) : (s.popHost).msize = s.msize := rfl
@[simp] theorem State.popHost_ip (s : State) : (s.popHost).ip = s.ip := rfl
@[simp] theorem State.popHost_status (s : State) : (s.popHost).status = s.status := rfl
@[simp] theorem State.popHost_haltKind (s : State) : (s.popHost).haltKind = s.haltKind := rfl
@[simp] theorem State.popHost_faultCode (s : State) : (s.popHost).faultCode = s.faultCode := rfl
@[simp] theorem State.popHost_faultPc (s : State) : (s.popHost).faultPc = s.faultPc := rfl
@[simp] theorem State.popHost_faultValue (s : State) : (s.popHost).faultValue = s.faultValue := rfl
@[simp] theorem State.popHost_wait (s : State) : (s.popHost).wait = s.wait := rfl
@[simp] theorem State.popHost_inputsTaken (s : State) : (s.popHost).inputsTaken = s.inputsTaken := rfl
@[simp] theorem State.popHost_outputs (s : State) : (s.popHost).outputs = s.outputs := rfl
@[simp] theorem State.popHost_inReset (s : State) : (s.popHost).inReset = s.inReset := rfl
@[simp] theorem State.popHost_host (s : State) : (s.popHost).host = s.host.tail := rfl

/-! ### `State.resetValues` -/

@[simp] theorem State.resetValues_mem (s : State) : (s.resetValues).mem = s.mem := rfl
@[simp] theorem State.resetValues_msize (s : State) : (s.resetValues).msize = s.msize := rfl
@[simp] theorem State.resetValues_ip (s : State) : (s.resetValues).ip = 0 := rfl
@[simp] theorem State.resetValues_status (s : State) : (s.resetValues).status = .running := rfl
@[simp] theorem State.resetValues_haltKind (s : State) : (s.resetValues).haltKind = false := rfl
@[simp] theorem State.resetValues_faultCode (s : State) : (s.resetValues).faultCode = .noFault := rfl
@[simp] theorem State.resetValues_faultPc (s : State) : (s.resetValues).faultPc = 0 := rfl
@[simp] theorem State.resetValues_faultValue (s : State) : (s.resetValues).faultValue = 0 := rfl
@[simp] theorem State.resetValues_wait (s : State) : (s.resetValues).wait = .idle := rfl
@[simp] theorem State.resetValues_inputsTaken (s : State) : (s.resetValues).inputsTaken = [] := rfl
@[simp] theorem State.resetValues_outputs (s : State) : (s.resetValues).outputs = [] := rfl
@[simp] theorem State.resetValues_inReset (s : State) : (s.resetValues).inReset = false := rfl
@[simp] theorem State.resetValues_host (s : State) : (s.resetValues).host = s.host := rfl

/-! ### `State.resetEdge` -/

@[simp] theorem State.resetEdge_mem (s : State) (p : Pins) : (s.resetEdge p).mem = (s.load p).mem := rfl
@[simp] theorem State.resetEdge_msize (s : State) (p : Pins) : (s.resetEdge p).msize = (s.load p).msize := rfl
@[simp] theorem State.resetEdge_ip (s : State) (p : Pins) : (s.resetEdge p).ip = s.ip := rfl
@[simp] theorem State.resetEdge_status (s : State) (p : Pins) : (s.resetEdge p).status = s.status := rfl
@[simp] theorem State.resetEdge_haltKind (s : State) (p : Pins) : (s.resetEdge p).haltKind = s.haltKind := rfl
@[simp] theorem State.resetEdge_faultCode (s : State) (p : Pins) : (s.resetEdge p).faultCode = s.faultCode := rfl
@[simp] theorem State.resetEdge_faultPc (s : State) (p : Pins) : (s.resetEdge p).faultPc = s.faultPc := rfl
@[simp] theorem State.resetEdge_faultValue (s : State) (p : Pins) : (s.resetEdge p).faultValue = s.faultValue := rfl
@[simp] theorem State.resetEdge_wait (s : State) (p : Pins) : (s.resetEdge p).wait = .idle := rfl
@[simp] theorem State.resetEdge_inputsTaken (s : State) (p : Pins) : (s.resetEdge p).inputsTaken = s.inputsTaken := rfl
@[simp] theorem State.resetEdge_outputs (s : State) (p : Pins) : (s.resetEdge p).outputs = s.outputs := rfl
@[simp] theorem State.resetEdge_inReset (s : State) (p : Pins) : (s.resetEdge p).inReset = true := rfl
@[simp] theorem State.resetEdge_host (s : State) (p : Pins) : (s.resetEdge p).host = s.host := rfl

end Sys2Proof.Machine
end

