-- ==== Sys2Proof/Laws/Operands.lean ====
section
/-! SUPPORT. What each operation of the resolution unit can do, said once. -/

namespace Sys2Proof.Machine

/-! ### `Resolved` -/

@[simp] theorem Resolved.bind_ok {α β : Type} (a : α) (f : α → Resolved β) :
    (Resolved.ok a).bind f = f a := rfl

@[simp] theorem Resolved.bind_trap {α β : Type} (c : FaultCode) (v : Word) (f : α → Resolved β) :
    (Resolved.trap c v : Resolved α).bind f = .trap c v := rfl

@[simp] theorem Resolved.bind_refuse {α β : Type} (w : Refusal) (f : α → Resolved β) :
    (Resolved.refuse w : Resolved α).bind f = .refuse w := rfl

theorem Resolved.bind_eq_ok {α β : Type} {r : Resolved α} {f : α → Resolved β} {b : β} :
    r.bind f = .ok b ↔ ∃ a, r = .ok a ∧ f a = .ok b := by
  cases r <;> simp

theorem Resolved.bind_eq_trap {α β : Type} {r : Resolved α} {f : α → Resolved β} {c : FaultCode}
    {v : Word} :
    r.bind f = .trap c v ↔ r = .trap c v ∨ ∃ a, r = .ok a ∧ f a = .trap c v := by
  cases r <;> simp

theorem Resolved.bind_eq_refuse {α β : Type} {r : Resolved α} {f : α → Resolved β} {w : Refusal} :
    r.bind f = .refuse w ↔ r = .refuse w ∨ ∃ a, r = .ok a ∧ f a = .refuse w := by
  cases r <;> simp

@[simp] theorem Resolved.run_ok {α : Type} (a : α) (s : State)
    (k : α → Host.Outcome State Fault Refusal) : (Resolved.ok a).run s k = k a := rfl

@[simp] theorem Resolved.run_trap {α : Type} (c : FaultCode) (v : Word) (s : State)
    (k : α → Host.Outcome State Fault Refusal) :
    (Resolved.trap c v : Resolved α).run s k = .next (s.takeFault c v) := rfl

@[simp] theorem Resolved.run_refuse {α : Type} (w : Refusal) (s : State)
    (k : α → Host.Outcome State Fault Refusal) :
    (Resolved.refuse w : Resolved α).run s k = .refused w := rfl

/-- A next state of an instruction comes from its values or from a fault entry. -/
theorem Resolved.run_eq_next {α : Type} {r : Resolved α} {s t : State}
    {k : α → Host.Outcome State Fault Refusal} :
    r.run s k = .next t ↔
      (∃ a, r = .ok a ∧ k a = .next t) ∨ ∃ c v, r = .trap c v ∧ t = s.takeFault c v := by
  cases r <;> simp [eq_comm]

/-! ### Addresses -/

/-- A valid address is a cell index below N that an Int64 can hold (20_memory.md R29). -/
theorem State.valid_iff (s : State) (v : Word) :
    s.valid v = true ↔ v.toNat < s.msize.toNat ∧ v.toNat < 2 ^ 63 := by
  have h := v.isLt
  simp only [State.valid, decide_eq_true_eq, BitVec.toInt_eq_toNat_cond]
  split <;> omega

theorem State.sizeLegal_iff (s : State) :
    s.sizeLegal = true ↔ 1 ≤ s.msize.toNat ∧ s.msize.toNat < 2 ^ 63 := by
  simp [State.sizeLegal]

/-! ### What each operation can do -/

theorem State.cell_eq_ok {s : State} {a : Nat} {v : Word} :
    s.cell a = .ok v ↔ s.mem.read a = some v := by
  simp only [State.cell]
  split <;> simp_all

/-- A read of a cell never traps. -/
theorem State.cell_ne_trap (s : State) (a : Nat) (c : FaultCode) (v : Word) :
    s.cell a ≠ .trap c v := by
  simp only [State.cell]
  split <;> simp

theorem State.operandWord_eq_ok {s : State} {k : Nat} {v : Word} :
    s.operandWord k = .ok v ↔
      s.ip.toNat + k < s.msize.toNat ∧ s.mem.read (s.ip.toNat + k) = some v := by
  simp only [State.operandWord]
  split
  · simp_all [State.cell_eq_ok]
  · simp_all

theorem State.operandWord_eq_trap {s : State} {k : Nat} {c : FaultCode} {v : Word} :
    s.operandWord k = .trap c v ↔
      s.msize.toNat ≤ s.ip.toNat + k ∧ c = .badAddress ∧ v = BitVec.ofNat 64 (s.ip.toNat + k) := by
  simp only [State.operandWord]
  split
  · simp [State.cell_ne_trap]
    omega
  · simp only [Resolved.trap.injEq]
    constructor
    · rintro ⟨rfl, rfl⟩
      exact ⟨by omega, rfl, rfl⟩
    · rintro ⟨-, rfl, rfl⟩
      exact ⟨rfl, rfl⟩

theorem State.dereference_eq_ok {s : State} {raw v : Word} :
    s.dereference raw = .ok v ↔ s.valid raw = true ∧ s.mem.read raw.toNat = some v := by
  simp only [State.dereference]
  split <;> simp_all [State.cell_eq_ok]

theorem State.dereference_eq_trap {s : State} {raw v : Word} {c : FaultCode} :
    s.dereference raw = .trap c v ↔ s.valid raw = false ∧ c = .badAddress ∧ v = raw := by
  simp only [State.dereference]
  split
  · simp_all [State.cell_ne_trap]
  · constructor
    · intro h
      cases h
      exact ⟨by simp_all, rfl, rfl⟩
    · rintro ⟨-, rfl, rfl⟩
      rfl

theorem checkMode_eq_ok {m : Mode} {u : Unit} :
    checkMode m = .ok u ↔ m = .position ∨ m = .immediate := by
  cases m <;> simp [checkMode]

theorem checkMode_eq_trap {m : Mode} {c : FaultCode} {v : Word} :
    checkMode m = .trap c v ↔
      ∃ d, m = .undefined d ∧ c = .invalidMode ∧ v = BitVec.ofNat 64 d := by
  cases m <;> simp [checkMode, eq_comm]

theorem checkMode_ne_refuse (m : Mode) (w : Refusal) : checkMode m ≠ .refuse w := by
  cases m <;> simp [checkMode]

/-- A destination is a valid cell index, held in the operand word (30_encoding.md R57). -/
theorem State.writeOperand_eq_ok {s : State} {k d : Nat} :
    s.writeOperand k = .ok d ↔
      ∃ raw, s.operandWord k = .ok raw ∧ s.valid raw = true ∧ d = raw.toNat := by
  simp only [State.writeOperand, Resolved.bind_eq_ok]
  refine exists_congr fun raw => and_congr_right fun _ => ?_
  split
  · rename_i h
    simp only [Resolved.ok.injEq, h, true_and]
    exact eq_comm
  · rename_i h
    simp [h]

theorem State.writeOperand_eq_trap {s : State} {k : Nat} {c : FaultCode} {v : Word} :
    s.writeOperand k = .trap c v ↔
      s.operandWord k = .trap c v ∨
        (s.operandWord k = .ok v ∧ s.valid v = false ∧ c = .badAddress) := by
  simp only [State.writeOperand, Resolved.bind_eq_trap]
  refine or_congr_right ?_
  constructor
  · rintro ⟨raw, h, hr⟩
    split at hr
    · simp at hr
    · simp only [Resolved.trap.injEq] at hr
      obtain ⟨rfl, rfl⟩ := hr
      exact ⟨h, by simp_all, rfl⟩
  · rintro ⟨h, hv, rfl⟩
    exact ⟨v, h, by simp [hv]⟩

theorem State.readOperand_eq_ok {s : State} {k : Nat} {m : Mode} {v : Word} :
    s.readOperand k m = .ok v ↔
      ∃ raw, s.operandWord k = .ok raw ∧
        ((m = .position ∧ s.dereference raw = .ok v) ∨ (m = .immediate ∧ raw = v)) := by
  simp only [State.readOperand, Resolved.bind_eq_ok]
  refine exists_congr fun raw => and_congr_right fun _ => ?_
  cases m <;> simp

theorem State.readOperand_eq_trap {s : State} {k : Nat} {m : Mode} {c : FaultCode} {v : Word} :
    s.readOperand k m = .trap c v ↔
      s.operandWord k = .trap c v ∨
        ∃ raw, s.operandWord k = .ok raw ∧
          ((m = .position ∧ s.dereference raw = .trap c v) ∨
            ∃ d, m = .undefined d ∧ c = .invalidMode ∧ v = BitVec.ofNat 64 d) := by
  simp only [State.readOperand, Resolved.bind_eq_trap]
  refine or_congr_right (exists_congr fun raw => and_congr_right fun _ => ?_)
  cases m <;> simp [eq_comm]

/-! ### Resolution depends on memory, N and ip alone -/

theorem State.valid_congr {s t : State} (h : s.msize = t.msize) (v : Word) :
    s.valid v = t.valid v := by
  simp [State.valid, h]

theorem State.operandWord_congr {s t : State} (hm : s.mem = t.mem) (hn : s.msize = t.msize)
    (hi : s.ip = t.ip) (k : Nat) : s.operandWord k = t.operandWord k := by
  simp [State.operandWord, State.cell, hm, hn, hi]

theorem State.readOperand_congr {s t : State} (hm : s.mem = t.mem) (hn : s.msize = t.msize)
    (hi : s.ip = t.ip) (k : Nat) (m : Mode) : s.readOperand k m = t.readOperand k m := by
  simp [State.readOperand, State.dereference, State.valid, State.cell,
    State.operandWord_congr hm hn hi, hm, hn]

theorem State.writeOperand_congr {s t : State} (hm : s.mem = t.mem) (hn : s.msize = t.msize)
    (hi : s.ip = t.ip) (k : Nat) : s.writeOperand k = t.writeOperand k := by
  simp [State.writeOperand, State.valid, State.operandWord_congr hm hn hi, hn]

theorem State.resolveBinary_congr {s t : State} (hm : s.mem = t.mem) (hn : s.msize = t.msize)
    (hi : s.ip = t.ip) (m1 m2 : Mode) : s.resolveBinary m1 m2 = t.resolveBinary m1 m2 := by
  simp only [State.resolveBinary, State.readOperand_congr hm hn hi,
    State.writeOperand_congr hm hn hi]

theorem State.resolveSource_congr {s t : State} (hm : s.mem = t.mem) (hn : s.msize = t.msize)
    (hi : s.ip = t.ip) (m1 : Mode) : s.resolveSource m1 = t.resolveSource m1 := by
  simp only [State.resolveSource, State.readOperand_congr hm hn hi]

theorem State.resolveDest_congr {s t : State} (hm : s.mem = t.mem) (hn : s.msize = t.msize)
    (hi : s.ip = t.ip) : s.resolveDest = t.resolveDest :=
  State.writeOperand_congr hm hn hi 1

/-! ### The three resolutions -/

/-- ADD and MUL have values exactly when both modes are defined and all three operands resolve. -/
theorem State.resolveBinary_eq_ok {s : State} {m1 m2 : Mode} {v1 v2 : Word} {d : Nat} :
    s.resolveBinary m1 m2 = .ok (v1, v2, d) ↔
      s.readOperand 1 m1 = .ok v1 ∧ s.readOperand 2 m2 = .ok v2 ∧ s.writeOperand 3 = .ok d := by
  constructor
  · intro h
    simp only [State.resolveBinary, Resolved.bind_eq_ok, Resolved.ok.injEq, Prod.mk.injEq] at h
    obtain ⟨_, _, _, _, a, ha, b, hb, c, hc, rfl, rfl, rfl⟩ := h
    exact ⟨ha, hb, hc⟩
  · rintro ⟨h1, h2, h3⟩
    have c1 : checkMode m1 = .ok () := by
      obtain ⟨_, -, ⟨rfl, -⟩ | ⟨rfl, -⟩⟩ := State.readOperand_eq_ok.1 h1 <;> rfl
    have c2 : checkMode m2 = .ok () := by
      obtain ⟨_, -, ⟨rfl, -⟩ | ⟨rfl, -⟩⟩ := State.readOperand_eq_ok.1 h2 <;> rfl
    simp [State.resolveBinary, c1, c2, h1, h2, h3]

/-- OUT has a value exactly when its operand resolves. -/
theorem State.resolveSource_eq_ok {s : State} {m1 : Mode} {v : Word} :
    s.resolveSource m1 = .ok v ↔ s.readOperand 1 m1 = .ok v := by
  cases m1 with
  | position => rfl
  | immediate => rfl
  | undefined d => simp [State.resolveSource, checkMode, State.readOperand_eq_ok]

/-- What a trap of an operand can report: BadAddress with a value that is no valid address, or
InvalidMode with the digit of a mode. `m` is the mode of the operand. -/
def TrapReport (s : State) (m : Mode) (c : FaultCode) (v : Word) : Prop :=
  (c = .badAddress ∧ (s.valid v = false)) ∨
    ∃ d, m = .undefined d ∧ c = .invalidMode ∧ v = BitVec.ofNat 64 d

/-- The bound of an operand word is reported as an address that is not valid (30_encoding.md R54). -/
theorem State.operandWord_trap_invalid {s : State} {k : Nat} {c : FaultCode} {v : Word}
    (hi : s.ip.toNat + k < 2 ^ 64) (h : s.operandWord k = .trap c v) :
    c = .badAddress ∧ s.valid v = false := by
  obtain ⟨hn, rfl, rfl⟩ := State.operandWord_eq_trap.1 h
  refine ⟨rfl, ?_⟩
  by_contra hv
  rw [Bool.not_eq_false, State.valid_iff, BitVec.toNat_ofNat, Nat.mod_eq_of_lt hi] at hv
  omega

theorem State.readOperand_trap {s : State} {k : Nat} {m : Mode} {c : FaultCode} {v : Word}
    (hi : s.ip.toNat + k < 2 ^ 64) (h : s.readOperand k m = .trap c v) : TrapReport s m c v := by
  obtain h | ⟨raw, -, ⟨-, h⟩ | h⟩ := State.readOperand_eq_trap.1 h
  · exact .inl (State.operandWord_trap_invalid hi h)
  · obtain ⟨hv, rfl, rfl⟩ := State.dereference_eq_trap.1 h
    exact .inl ⟨rfl, hv⟩
  · exact .inr h

theorem State.writeOperand_trap {s : State} {k : Nat} {c : FaultCode} {v : Word}
    (hi : s.ip.toNat + k < 2 ^ 64) (h : s.writeOperand k = .trap c v) :
    c = .badAddress ∧ s.valid v = false := by
  obtain h | ⟨-, hv, rfl⟩ := State.writeOperand_eq_trap.1 h
  · exact State.operandWord_trap_invalid hi h
  · exact ⟨rfl, hv⟩

theorem checkMode_trap {s : State} {m : Mode} {c : FaultCode} {v : Word}
    (h : checkMode m = .trap c v) : TrapReport s m c v :=
  .inr (checkMode_eq_trap.1 h)

/-- Every trap of ADD and MUL is one of the reports of 60_exceptions.md R94. -/
theorem State.resolveBinary_trap {s : State} {m1 m2 : Mode} {c : FaultCode} {v : Word}
    (hi : s.ip.toNat + 3 < 2 ^ 64) (h : s.resolveBinary m1 m2 = .trap c v) :
    TrapReport s m1 c v ∨ TrapReport s m2 c v := by
  simp only [State.resolveBinary, Resolved.bind_eq_trap] at h
  obtain h | ⟨_, _, h | ⟨_, _, h | ⟨_, _, h | ⟨_, _, h | ⟨_, _, h⟩⟩⟩⟩⟩ := h
  · exact .inl (checkMode_trap h)
  · exact .inr (checkMode_trap h)
  · exact .inl (State.readOperand_trap (by omega) h)
  · exact .inr (State.readOperand_trap (by omega) h)
  · exact .inl (.inl (State.writeOperand_trap hi h))
  · simp at h

/-- Every trap of OUT is one of the reports of 60_exceptions.md R94. -/
theorem State.resolveSource_trap {s : State} {m1 : Mode} {c : FaultCode} {v : Word}
    (hi : s.ip.toNat + 3 < 2 ^ 64) (h : s.resolveSource m1 = .trap c v) : TrapReport s m1 c v := by
  simp only [State.resolveSource, Resolved.bind_eq_trap] at h
  obtain h | ⟨_, _, h⟩ := h
  · exact checkMode_trap h
  · exact State.readOperand_trap (by omega) h

end Sys2Proof.Machine
end

