-- ==== Sys2Proof/Laws/Exec.lean ====
section
/-! SUPPORT. What each instruction can do: the only ways it can answer a next state. -/

namespace Sys2Proof.Machine

/-! ### `exec` on each constructor -/

@[simp] theorem exec_add (m1 m2 : Mode) (s : State) :
    exec (.add m1 m2) s = s.aluInstr aluAdd m1 m2 := rfl

@[simp] theorem exec_mul (m1 m2 : Mode) (s : State) :
    exec (.mul m1 m2) s = s.aluInstr aluMul m1 m2 := rfl

@[simp] theorem exec_inp (s : State) :
    exec .inp s = s.resolveDest.run s fun d => .next (s.inputTransfer d) := rfl

@[simp] theorem exec_out (m1 : Mode) (s : State) :
    exec (.out m1) s = (s.resolveSource m1).run s fun v => .next (s.outputTransfer v) := rfl

@[simp] theorem exec_halt (s : State) : exec .halt s = .next ((s.halt false).advance 1) := rfl

@[simp] theorem exec_div (s : State) : exec .div s = s.raiseInvalidOpcode 50 := rfl

@[simp] theorem exec_jge (s : State) : exec .jge s = s.raiseInvalidOpcode 60 := rfl

@[simp] theorem exec_invalid (opc : Int) (s : State) :
    exec (.invalid opc) s = s.raiseInvalidOpcode opc := rfl

/-! ### ADD and MUL -/

/-- ADD and MUL write their result and advance, or take a fault. -/
theorem State.aluInstr_eq_next {s t : State} {op : Word → Word → Word} {m1 m2 : Mode} :
    s.aluInstr op m1 m2 = .next t ↔
      (∃ v1 v2 d, s.resolveBinary m1 m2 = .ok (v1, v2, d) ∧
        t = (s.store d (op v1 v2)).advance 4) ∨
      ∃ c v, s.resolveBinary m1 m2 = .trap c v ∧ t = s.takeFault c v := by
  rw [State.aluInstr, Resolved.run_eq_next]
  refine or_congr_left ?_
  simp only [Prod.exists, Host.Outcome.next.injEq, eq_comm]

/-! ### IN and OUT -/

/-- IN begins to wait, waits on, takes the value on offer, or takes a fault. -/
theorem execIn_eq_next {s t : State} :
    execIn s = .next t ↔
      (∃ d, s.resolveDest = .ok d ∧ t = s.inputTransfer d) ∨
      ∃ c v, s.resolveDest = .trap c v ∧ t = s.takeFault c v := by
  rw [execIn, Resolved.run_eq_next]
  refine or_congr_left ?_
  simp only [Host.Outcome.next.injEq, eq_comm]

/-- The three things an IN with a good destination can do. -/
theorem State.inputTransfer_cases (s : State) (d : Nat) :
    (s.wait ≠ .input ∧ s.inputTransfer d = { s with wait := .input }) ∨
    (s.wait = .input ∧ s.pins.inValid = false ∧ s.inputTransfer d = s) ∨
    (s.wait = .input ∧ s.pins.inValid = true ∧
      s.inputTransfer d =
        ({ s with wait := .idle, inputsTaken := s.inputsTaken ++ [s.pins.inData] }.store d
          s.pins.inData).advance 2) := by
  simp only [State.inputTransfer]
  split
  · split
    · exact .inr (.inr ⟨‹_›, ‹_›, rfl⟩)
    · exact .inr (.inl ⟨‹_›, by simp_all, rfl⟩)
  · exact .inl ⟨‹_›, rfl⟩

/-- OUT begins to wait, waits on, hands its value over, or takes a fault. -/
theorem execOut_eq_next {s t : State} {m1 : Mode} :
    execOut m1 s = .next t ↔
      (∃ v, s.resolveSource m1 = .ok v ∧ t = s.outputTransfer v) ∨
      ∃ c v, s.resolveSource m1 = .trap c v ∧ t = s.takeFault c v := by
  rw [execOut, Resolved.run_eq_next]
  refine or_congr_left ?_
  simp only [Host.Outcome.next.injEq, eq_comm]

/-- The three things an OUT with a good operand can do. -/
theorem State.outputTransfer_cases (s : State) (v : Word) :
    (s.wait ≠ .output ∧ s.outputTransfer v = { s with wait := .output }) ∨
    (s.wait = .output ∧ s.pins.outReady = false ∧ s.outputTransfer v = s) ∨
    (s.wait = .output ∧ s.pins.outReady = true ∧
      s.outputTransfer v =
        { s with wait := .idle, outputs := s.outputs ++ [v] }.advance 2) := by
  simp only [State.outputTransfer]
  split
  · split
    · exact .inr (.inr ⟨‹_›, ‹_›, rfl⟩)
    · exact .inr (.inl ⟨‹_›, by simp_all, rfl⟩)
  · exact .inl ⟨‹_›, rfl⟩

/-! ### All instructions -/

/-- The ways an instruction can answer a next state, all of them. -/
inductive Effect (s : State) : Instr → State → Prop
  | addWrites (m1 m2 : Mode) (v1 v2 : Word) (d : Nat)
      (h : s.resolveBinary m1 m2 = .ok (v1, v2, d)) :
      Effect s (.add m1 m2) ((s.store d (aluAdd v1 v2)).advance 4)
  | addFaults (m1 m2 : Mode) (c : FaultCode) (v : Word) (h : s.resolveBinary m1 m2 = .trap c v) :
      Effect s (.add m1 m2) (s.takeFault c v)
  | mulWrites (m1 m2 : Mode) (v1 v2 : Word) (d : Nat)
      (h : s.resolveBinary m1 m2 = .ok (v1, v2, d)) :
      Effect s (.mul m1 m2) ((s.store d (aluMul v1 v2)).advance 4)
  | mulFaults (m1 m2 : Mode) (c : FaultCode) (v : Word) (h : s.resolveBinary m1 m2 = .trap c v) :
      Effect s (.mul m1 m2) (s.takeFault c v)
  | inTransfer (d : Nat) (h : s.resolveDest = .ok d) : Effect s .inp (s.inputTransfer d)
  | inFaults (c : FaultCode) (v : Word) (h : s.resolveDest = .trap c v) :
      Effect s .inp (s.takeFault c v)
  | outTransfer (m1 : Mode) (v : Word) (h : s.resolveSource m1 = .ok v) :
      Effect s (.out m1) (s.outputTransfer v)
  | outFaults (m1 : Mode) (c : FaultCode) (v : Word) (h : s.resolveSource m1 = .trap c v) :
      Effect s (.out m1) (s.takeFault c v)
  | halts : Effect s .halt ((s.halt false).advance 1)
  | divRaises : Effect s .div (s.takeFault .invalidOpcode (wrap64 50))
  | jgeRaises : Effect s .jge (s.takeFault .invalidOpcode (wrap64 60))
  | invalidRaises (opc : Int) : Effect s (.invalid opc) (s.takeFault .invalidOpcode (wrap64 opc))

/-- The inversion lemma of `exec`: later proofs take its cases instead of unfolding a meaning. -/
theorem exec_effect {i : Instr} {s t : State} (h : exec i s = .next t) : Effect s i t := by
  cases i with
  | add m1 m2 =>
    obtain ⟨v1, v2, d, hr, rfl⟩ | ⟨c, v, hr, rfl⟩ := State.aluInstr_eq_next.1 h
    · exact .addWrites m1 m2 v1 v2 d hr
    · exact .addFaults m1 m2 c v hr
  | mul m1 m2 =>
    obtain ⟨v1, v2, d, hr, rfl⟩ | ⟨c, v, hr, rfl⟩ := State.aluInstr_eq_next.1 h
    · exact .mulWrites m1 m2 v1 v2 d hr
    · exact .mulFaults m1 m2 c v hr
  | inp =>
    obtain ⟨d, hr, rfl⟩ | ⟨c, v, hr, rfl⟩ := execIn_eq_next.1 h
    · exact .inTransfer d hr
    · exact .inFaults c v hr
  | out m1 =>
    obtain ⟨v, hr, rfl⟩ | ⟨c, v, hr, rfl⟩ := execOut_eq_next.1 h
    · exact .outTransfer m1 v hr
    · exact .outFaults m1 c v hr
  | halt => cases h; exact .halts
  | div => cases h; exact .divRaises
  | jge => cases h; exact .jgeRaises
  | invalid opc => cases h; exact .invalidRaises opc

end Sys2Proof.Machine
end

