-- ==== Sys2Proof/Laws/PerInstr.lean ====
section
/-! SUPPORT. The family OpcodeRead: the decoder reads the opcode and the mode digits of an encoded
instruction back, one lemma for each constructor. -/

namespace Sys2Proof.Laws.OpcodeRead

/-- The fields of the canonical word of a well-formed instruction are its own. -/
def Statement (i : Instr) : Prop :=
  i.wf = true →
    decodeFields (encode i) =
      { opc := i.opcode, m1 := i.modeDigits.1, m2 := i.modeDigits.2, m3 := 0 }

theorem add (m1 m2 : Mode) : Statement (.add m1 m2) := by
  intro h
  simp only [Instr.wf, Bool.and_eq_true] at h
  exact decodeFields_wrap64 (opc := 1) (by decide) (by decide) (Mode.digit_le h.1) (Mode.digit_le h.2)

theorem mul (m1 m2 : Mode) : Statement (.mul m1 m2) := by
  intro h
  simp only [Instr.wf, Bool.and_eq_true] at h
  exact decodeFields_wrap64 (opc := 2) (by decide) (by decide) (Mode.digit_le h.1) (Mode.digit_le h.2)

theorem inp : Statement .inp := fun _ =>
  decodeFields_wrap64 (by decide) (by decide) (Nat.zero_le _) (Nat.zero_le _)

theorem out (m1 : Mode) : Statement (.out m1) := fun h =>
  decodeFields_wrap64 (opc := 4) (by decide) (by decide) (Mode.digit_le h) (Nat.zero_le _)

theorem halt : Statement .halt := fun _ =>
  decodeFields_wrap64 (by decide) (by decide) (Nat.zero_le _) (Nat.zero_le _)

theorem div : Statement .div := fun _ =>
  decodeFields_wrap64 (by decide) (by decide) (Nat.zero_le _) (Nat.zero_le _)

theorem jge : Statement .jge := fun _ =>
  decodeFields_wrap64 (by decide) (by decide) (Nat.zero_le _) (Nat.zero_le _)

theorem invalid (opc : Int) : Statement (.invalid opc) := by
  intro h
  simp only [Instr.wf, Bool.and_eq_true, decide_eq_true_eq] at h
  obtain ⟨⟨hlo, hhi⟩, -⟩ := h
  by_cases h0 : 0 ≤ opc
  · exact decodeFields_wrap64 h0 hhi (Nat.zero_le _) (Nat.zero_le _)
  · have hx : (wrap64 opc).toInt = opc := wrap64_toInt (by omega) (by omega)
    have hr : rem opc 100 = opc := by
      rw [rem]
      have hs : (-opc).tmod 100 = -opc := Int.tmod_eq_of_lt (by omega) (by omega)
      rw [Int.neg_tmod] at hs
      omega
    have he : encode (.invalid opc) = wrap64 opc := by simp [encode, Instr.opcode, Instr.modeDigits]
    rw [he, decodeFields_of_neg (by omega), hx, hr]
    rfl

end Sys2Proof.Laws.OpcodeRead
end

