-- ==== Sys2Proof/Laws/Step.lean ====
section
/-! SUPPORT. What a step can do: the only ways it can answer a next state. -/

namespace Sys2Proof.Machine

theorem mapNext_eq_next {f : State → State} {o : Host.Outcome State Fault Refusal} {t : State} :
    mapNext f o = .next t ↔ ∃ u, o = .next u ∧ t = f u := by
  cases o <;> simp [mapNext, eq_comm]

@[simp] theorem mapNext_next (f : State → State) (s : State) : mapNext f (.next s) = .next (f s) :=
  rfl

@[simp] theorem mapNext_fault (f : State → State) (r : Fault) : mapNext f (.fault r) = .fault r :=
  rfl

@[simp] theorem mapNext_refused (f : State → State) (r : Refusal) :
    mapNext f (.refused r) = .refused r := rfl

@[simp] theorem State.pins_nil {s : State} (h : s.host = []) : s.pins = Pins.quiet := by
  simp [State.pins, h]

@[simp] theorem State.pins_cons {s : State} {p : Pins} {ps : List Pins} (h : s.host = p :: ps) :
    s.pins = p := by
  simp [State.pins, h]

theorem State.fetchExec_eq_next {s t : State} :
    s.fetchExec = .next t ↔
      ∃ w, s.mem.read s.ip.toNat = some w ∧ exec (decode w) s = .next t := by
  cases h : s.mem.read s.ip.toNat <;> simp [State.fetchExec, State.cell, h]

/-- The ways a step can answer a next state, all of them; the host's list goes on in each. -/
inductive Move (s : State) : State → Prop
  /-- An edge with `rst = 1`. -/
  | resets (h : s.pins.rst = true) : Move s (s.resetEdge s.pins).popHost
  /-- The release of `rst`. -/
  | releases (h : s.pins.rst = false) (hr : s.inReset = true) (hn : s.sizeLegal = true)
      (hc : s.msize.toNat ≤ Config.memCapacity) : Move s s.resetValues.popHost
  /-- Halted or Faulted: the core holds. -/
  | holds (h : s.pins.rst = false) (hr : s.inReset = false)
      (ht : s.status = .halted ∨ s.status = .faulted) : Move s s.popHost
  /-- Boundary termination. -/
  | ends (h : s.pins.rst = false) (hr : s.inReset = false) (hs : s.status = .running)
      (hn : s.sizeLegal = true) (hb : s.msize.toNat ≤ s.ip.toNat) : Move s (s.halt true).popHost
  /-- An instruction. -/
  | runs (h : s.pins.rst = false) (hr : s.inReset = false) (hs : s.status = .running)
      (hn : s.sizeLegal = true) (hb : s.ip.toNat < s.msize.toNat) (w : Word) (u : State)
      (hw : s.mem.read s.ip.toNat = some w) (hu : exec (decode w) s = .next u) : Move s u.popHost

/-- The inversion lemma of `step`. -/
theorem step_move {s t : State} (h : step s = .next t) : Move s t := by
  obtain ⟨u, hu, rfl⟩ := mapNext_eq_next.1 h
  simp only [State.event] at hu
  split at hu
  · cases hu
    exact .resets ‹_›
  · rename_i hp
    simp only [Bool.not_eq_true] at hp
    split at hu
    · simp only [State.release] at hu
      split at hu
      · rename_i hl
        cases hu
        exact .releases hp ‹_› hl.1 hl.2
      · cases hu
    · rename_i hr
      simp only [Bool.not_eq_true] at hr
      simp only [State.coreStep] at hu
      split at hu
      · simp only [State.runStep] at hu
        split at hu
        · split at hu
          · cases hu
            exact .ends hp hr ‹_› ‹_› ‹_›
          · obtain ⟨w, hw, hx⟩ := State.fetchExec_eq_next.1 hu
            exact .runs hp hr ‹_› ‹_› (by omega) w u hw hx
        · cases hu
      · cases hu
        exact .holds hp hr (.inl ‹_›)
      · cases hu
        exact .holds hp hr (.inr ‹_›)
      · cases hu

end Sys2Proof.Machine
end

