-- ==== Sys2Proof/Machine/ProgramText.lean ====
section
/-! DEFINITION. The program text and the image it stands for (30_encoding.md R61, decision D24): host
software, which the core never sees (00_scope.md R4); it says which image a text is. Malformed text
has no image (log 13). -/

namespace Sys2Proof.Machine

/-- Decimal digits after the value `acc`; none for any other character. -/
def readDigits : Nat → List Char → Option Nat
  | acc, [] => some acc
  | acc, c :: cs =>
    if 48 ≤ c.toNat ∧ c.toNat ≤ 57 then readDigits (10 * acc + (c.toNat - 48)) cs else none

/-- A signed decimal integer; none for an empty or non-numeric token. -/
def readInteger : List Char → Option Int
  | [] => none
  | c :: cs =>
    if c = '-' then
      match cs with
      | [] => none
      | d :: ds => (readDigits 0 (d :: ds)).map fun n => -(n : Int)
    else (readDigits 0 (c :: cs)).map fun n => (n : Int)

/-- A token as a cell value: "A token outside Int64 is malformed". -/
def readToken (cs : List Char) : Option Word :=
  match readInteger cs with
  | some x => if -2 ^ 63 ≤ x ∧ x < 2 ^ 63 then some (wrap64 x) else none
  | none => none

/-- The tokens between the commas: one more than there are commas. -/
def splitCommas : List Char → List (List Char)
  | [] => [[]]
  | c :: cs =>
    match splitCommas cs with
    | [] => []
    | t :: ts => if c = ',' then [] :: t :: ts else (c :: t) :: ts

/-- Every token as a cell value, in source order. -/
def readTokens : List (List Char) → Option (List Word)
  | [] => some []
  | t :: ts => (readToken t).bind fun w => (readTokens ts).map fun ws => w :: ws

/-- The text without one trailing newline, which the loader tolerates. -/
def dropNewline : List Char → List Char
  | [] => []
  | [c] => if c = '\n' then [] else [c]
  | c :: d :: cs => c :: dropNewline (d :: cs)

/-- The image of a program text (30_encoding.md R61); none for malformed text. -/
def readImage (text : List Char) : Option (List Word) := readTokens (splitCommas (dropNewline text))

end Sys2Proof.Machine
end

