-- ==== Sys2Proof/Tests/Slice0.lean ====
section
/-! SUPPORT. The model's own tests, each with the source of its expected value, and one witness for
the hypotheses of each statement. -/

namespace Sys2Proof.Tests

open Sys2Proof Sys2Proof.Machine

/-- The state after reset with an image loaded (10_state.md R27), and a host. -/
def machine (image : List Word) (host : List Pins) : State :=
  { State.reset with
    mem := Memory.writeAll [] 0 image, msize := BitVec.ofNat 64 image.length, host := host }

/-- A next state that meets a condition. -/
def nextSat (o : Host.Outcome State Fault Refusal) (p : State → Bool) : Bool :=
  match o with
  | .next s => p s
  | .fault _ => false
  | .refused _ => false

/-- The fault of `o`: code, value, pc, and that `ip` stays there, with memory and streams as in `s`. -/
def faultsWith (s : State) (c : FaultCode) (v pc : Word) : Bool :=
  nextSat (step s) fun t =>
    decide (t.status = .faulted ∧ t.faultCode = c ∧ t.faultValue = v ∧ t.faultPc = pc ∧
      t.ip = pc ∧ t.mem = s.mem ∧ t.inputsTaken = [] ∧ t.outputs = [])

/-- The host offers the input `v`. -/
def offer (v : Word) : Pins := { Pins.quiet with inValid := true, inData := v }

/-- The host accepts output. -/
def accept : Pins := { Pins.quiet with outReady := true }

/-! ### WellFormed refuses an ill-formed term of each kind -/

theorem smoke_add_mode1 : (Instr.add (.undefined 10) .position).wf = false := by decide
theorem smoke_add_mode2 : (Instr.add .position (.undefined 1)).wf = false := by decide
theorem smoke_mul_mode1 : (Instr.mul (.undefined 0) .immediate).wf = false := by decide
theorem smoke_mul_mode2 : (Instr.mul .immediate (.undefined 12)).wf = false := by decide
theorem smoke_out_mode : (Instr.out (.undefined 1)).wf = false := by decide
theorem smoke_invalid_low : (Instr.invalid (-100)).wf = false := by decide
theorem smoke_invalid_high : (Instr.invalid 100).wf = false := by decide
theorem smoke_invalid_named : (Instr.invalid 50).wf = false := by decide

/-! ### Decoding: words written out from R45's decimal form, some as the bits of their cell -/

/-- `1101 = 1*1000 + 1*100 + 1` (30_encoding.md R45, R63), as a cell. -/
theorem test_decode_add_bits : decode 0b10001001101#64 = .add .immediate .immediate := by decide
/-- `2301`: digits 3 and 2 (95_test_vectors.md 2.1). -/
theorem test_decode_add_digits : decode 2301 = .add (.undefined 3) (.undefined 2) := by decide
/-- `1002` (95_test_vectors.md 2.1), as a cell. -/
theorem test_decode_mul_bits : decode 0b1111101010#64 = .mul .position .immediate := by decide
/-- `99903`: every digit ignored (42_io.md R81). -/
theorem test_decode_in : decode 99903 = .inp ∧ decode 0b11#64 = .inp := by decide
/-- `104` and `5004` (95_test_vectors.md 2.1, 42_io.md R84). -/
theorem test_decode_out : decode 0b1101000#64 = .out .immediate ∧ decode 5004 = .out .position := by
  decide
/-- `99`, `11199` (40_cycle_and_control.md R70). -/
theorem test_decode_halt : decode 0b1100011#64 = .halt ∧ decode 11199 = .halt := by decide
/-- `50`, `1150` (43_reserved_and_invalid.md R88). -/
theorem test_decode_div : decode 0b110010#64 = .div ∧ decode 1150 = .div := by decide
/-- `60`, `1160` (43_reserved_and_invalid.md R89). -/
theorem test_decode_jge : decode 0b111100#64 = .jge ∧ decode 1160 = .jge := by decide
/-- `0`, `207`, `-1`, `-199`, `2^63 - 1`, `-2^63` (95_test_vectors.md 2.1). -/
theorem test_decode_invalid :
    decode 0 = .invalid 0 ∧ decode 207 = .invalid 7 ∧ decode (-1) = .invalid (-1) ∧
    decode (-199) = .invalid (-99) ∧ decode 9223372036854775807 = .invalid 7 ∧
    decode (-9223372036854775808) = .invalid (-8) := by decide
/-- `123456` (95_test_vectors.md 2.1). -/
theorem test_decode_fields :
    decodeFields 123456 = { opc := 56, m1 := 4, m2 := 3, m3 := 2 } := by decide
/-- The canonical words of the opcode table, and R90's words for INVALID. -/
theorem test_encode :
    encode (.add .immediate .immediate) = 1101 ∧ encode (.mul .position .immediate) = 1002 ∧
    encode .inp = 3 ∧ encode (.out .immediate) = 104 ∧ encode .halt = 99 ∧ encode .div = 50 ∧
    encode .jge = 60 ∧ encode (.invalid 7) = 7 := by decide
/-- The examples of 30_encoding.md R63. -/
theorem test_assembly :
    Asm.cells (.add (.imm 30) (.imm 40) 3) = [1101, 30, 40, 3] ∧
    Asm.cells (.mul (.cell 3) (.imm 50) 0) = [1002, 3, 50, 0] ∧ Asm.cells .halt = [99] := by decide
/-- The table's numbering: the first cell is in the lowest bits. -/
theorem test_decodeTableWord :
    decodeTableWord 64 1101 = some (.add .immediate .immediate) ∧
    decodeTableWord 256 (4 + 7 * 2 ^ 64) = some (.out .position) := by decide

/-! ### Single steps (95_test_vectors.md sections 1 and 2) -/

/-- 41_arithmetic.md R76, example. -/
theorem test_add : nextSat (step (machine [1101, 30, 40, 3] [])) fun t =>
    decide (t.mem.read 3 = some 70 ∧ t.ip = 4 ∧ t.status = .running) := by decide
/-- Overflow wraps, and the ADD overwrites its own word (section 2.3). -/
theorem test_add_wraps : nextSat (step (machine [1101, 9223372036854775807, 1, 0, 99] [])) fun t =>
    decide (t.mem.read 0 = some (-9223372036854775808) ∧ t.ip = 4) := by decide
/-- Scenario S2. -/
theorem test_mul : nextSat (step (machine [2, 3, 0, 3, 99] [])) fun t =>
    decide (t.mem.read 3 = some 6 ∧ t.ip = 4) := by decide
/-- `3037000500` squared (section 2.4). -/
theorem test_mul_wraps :
    nextSat (step (machine [1102, 3037000500, 3037000500, 0, 99] [])) fun t =>
      decide (t.mem.read 0 = some (-9223372036709301616)) := by decide
/-- IO1's handshake, event 2: the offer that is already there is not yet taken. -/
theorem test_in_begins : nextSat (step (machine [3, 0, 99] [offer 7])) fun t =>
    decide (t.wait = .input ∧ t.mem.read 0 = some 3 ∧ t.ip = 0 ∧ t.inputsTaken = []) := by decide
/-- IO1's handshake, event 3. -/
theorem test_in_takes :
    nextSat (step { machine [3, 0, 99] [offer 7] with wait := .input }) fun t =>
      decide (t.wait = .idle ∧ t.mem.read 0 = some 7 ∧ t.ip = 2 ∧ t.inputsTaken = [7]) := by decide
/-- IO16: the OUT waits with its value on offer. -/
theorem test_out_begins : nextSat (step (machine [104, 5, 99] [])) fun t =>
    decide (t.wait = .output ∧ t.outData = some 5 ∧ t.ip = 0 ∧ t.outputs = []) := by decide
/-- IO10: an immediate is not checked as an address. -/
theorem test_out_emits :
    nextSat (step { machine [104, -5, 99] [accept] with wait := .output }) fun t =>
      decide (t.wait = .idle ∧ t.ip = 2 ∧ t.outputs = [-5]) := by decide
/-- HALT in the last cell (section 2.6). -/
theorem test_halt : nextSat (step (machine [299] [])) fun t =>
    decide (t.status = .halted ∧ t.haltKind = false ∧ t.ip = 1 ∧ t.result = some 299) := by decide
/-- Boundary termination (section 2.6). -/
theorem test_boundary : nextSat (step { machine [5, 2, 3, 0] [] with ip := 4 }) fun t =>
    decide (t.status = .halted ∧ t.haltKind = true ∧ t.ip = 4 ∧ t.result = some 5) := by decide
/-- Section 2.7: no operand word is read. -/
theorem test_div : faultsWith (machine [1150] []) .invalidOpcode 50 0 := by decide
theorem test_jge : faultsWith (machine [60, 1, 2] []) .invalidOpcode 60 0 := by decide
theorem test_invalid : faultsWith (machine [207] []) .invalidOpcode 7 0 := by decide
theorem test_invalid_negative : faultsWith (machine [-199] []) .invalidOpcode (-99) 0 := by decide
/-- OR3, OR13, OR14, OR16 to OR19, OR8, IO4, IO12, IO13 (sections 2.2 and 2.5). -/
theorem test_faults :
    faultsWith (machine [1, 4, 0, 0] []) .badAddress 4 0 ∧
    faultsWith (machine [2301, 0, 0, 0] []) .invalidMode 3 0 ∧
    faultsWith (machine [2001, -1, 0, 0] []) .invalidMode 2 0 ∧
    faultsWith (machine [1] []) .badAddress 1 0 ∧
    faultsWith (machine [1, 0] []) .badAddress 2 0 ∧
    faultsWith (machine [1, -1] []) .badAddress (-1) 0 ∧
    faultsWith (machine [1, 999999, -1, 5, 99, 0, 0, 0] []) .badAddress 999999 0 ∧
    faultsWith (machine [1101, 1, 1, -1] []) .badAddress (-1) 0 ∧
    faultsWith (machine [3, 5, 99] [offer 1]) .badAddress 5 0 ∧
    faultsWith (machine [204, 0, 99] []) .invalidMode 2 0 ∧
    faultsWith (machine [4] []) .badAddress 1 0 := by decide
/-- OR9 and OR10: the digit of the write operand is ignored. -/
theorem test_write_digit : nextSat (step (machine [20001, 0, 0, 0] [])) fun t =>
    decide (t.mem.read 0 = some 40002) := by decide
/-- Section 2.8: the inspection port, before the run. -/
theorem test_inspect :
    (machine [1101, 30, 40, 3, 1002, 3, 50, 0, 99] []).inspect 4 =
      some
        { word := 1002, opc := 2, name := .mul, modes := (0, 1, 0), count := 3
          opnd1 := ⟨true, some 3⟩, opnd2 := ⟨true, some 50⟩, opnd3 := ⟨true, some 0⟩
          next := 8 } := by decide
/-- Section 2.8: operand words past the end. -/
theorem test_inspect_end :
    ((machine [1, 0] []).inspect 0).map (fun x => (x.opnd1.ok, x.opnd2.ok, x.opnd3.ok, x.next)) =
      some (true, false, false, 4) := by decide
/-- P7's report. -/
theorem test_fault_report :
    nextSat (step (machine [1, 999999, -1, 5, 99, 0, 0, 0] [])) fun t =>
      decide (t.faultReport.map (fun r => (r.address, r.value, r.reason)) =
        some (0, 999999, "bad position")) := by decide
/-- 30_encoding.md R61's tolerance of a trailing newline, and 92_eei_decisions.md D24: an empty token
and a token outside Int64 are malformed. -/
theorem test_program_text :
    readImage ['1', '1', '0', '2', ',', '-', '3', ',', '0', '\n'] = some [1102, -3, 0] ∧
    readImage ['1', ',', ',', '9'] = none ∧
    readToken ['9', '2', '2', '3', '3', '7', '2', '0', '3', '6', '8', '5', '4', '7', '7', '5', '8', '0',
      '8'] = none := by decide
/-- What a run leaves (70_reset_and_hazards.md R114): a halted one has a result. -/
theorem test_observe : nextSat (step (machine [99, 7] [])) fun t =>
    decide (t.observe.map (fun o => (o.result, o.memory, o.outputs)) =
      some (some 99, [(0, 99), (1, 7)], [])) := by decide
/-- 70_reset_and_hazards.md R110: nothing is loaded, and the core does not run. -/
theorem test_nothing_loaded : step State.reset = .refused .sizeNotLoaded := rfl

end Sys2Proof.Tests
end

