-- ==== Sys2Proof/Tests/Witnesses.lean ====
section
/-! SUPPORT. For each statement with hypotheses a concrete state and operands that meet all of them,
clause by clause, at a boundary value where the clause has a range. -/

namespace Sys2Proof.Tests

open Sys2Proof Sys2Proof.Machine

/-! ### The states -/

/-- `ADD #30, #40, [3]`: every word inside, the destination the last cell. -/
def addState : State := machine [1101, 30, 40, 3] []

/-- `ADD [3], #2, [0]`: a position operand at the last cell. -/
def addPos : State := machine [1001, 3, 2, 0] []

/-- `IN [1]`, not yet waiting, and waiting. -/
def inState : State := machine [3, 1] [offer 7]
def inWaiting (host : List Pins) : State := { machine [3, 1] host with wait := .input }

/-- `OUT #9`, waiting. -/
def outWaiting (host : List Pins) : State := { machine [104, 9] host with wait := .output }

/-- A core halted by HALT, one that ended at the boundary, and a faulted one. -/
def haltedState (host : List Pins) : State :=
  { machine [99] host with status := .halted, ip := 1 }
def faultedState (host : List Pins) : State :=
  { machine [50] host with status := .faulted, faultCode := .invalidOpcode, faultValue := 50 }

/-- The host resets. -/
def resets : Pins := { Pins.quiet with rst := true }

/-! ### They meet the invariant -/

/-- A Running core that does not wait and has taken no fault meets the invariant. -/
theorem inv_of_fresh {s : State} (hm : s.mem.wf = true) (hi : s.ip.toNat ≤ s.msize.toNat)
    (hs : s.status = .running) (hk : s.haltKind = false) (hc : s.faultCode = .noFault)
    (hp : s.faultPc = 0) (hv : s.faultValue = 0) (hw : s.wait = .idle) : s.Inv := by
  constructor <;> simp_all

/-- The invariant says nothing of the host. -/
theorem inv_anyHost {s : State} (h : s.Inv) (host : List Pins) : State.Inv { s with host := host } :=
  ⟨h.1, h.2, h.3, h.4, h.5, h.6, h.7, h.8, h.9, h.10, h.11, h.12, h.13, h.14⟩

theorem inv_inWaiting_nil : (inWaiting []).Inv where
  memCanonical := by decide
  ipBound := fun _ => by decide
  statusLegal := by decide
  haltKindHalted := by decide
  boundaryAtEnd := fun _ h => absurd h (by decide)
  faultCodeFaulted := by decide
  faultRegsClear := fun _ => ⟨rfl, rfl⟩
  faultPcIp := fun h => absurd h (by decide)
  faultValueMode := fun h => absurd h (by decide)
  faultValueOpcode := fun h => absurd h (by decide)
  faultValueAddress := fun _ h => absurd h (by decide)
  waitRunning := fun _ => ⟨rfl, rfl, by decide, by decide⟩
  waitInput := fun _ => ⟨3, 1, by decide, by decide, by decide⟩
  waitOutput := fun h => absurd h (by decide)

theorem inv_outWaiting_nil : (outWaiting []).Inv where
  memCanonical := by decide
  ipBound := fun _ => by decide
  statusLegal := by decide
  haltKindHalted := by decide
  boundaryAtEnd := fun _ h => absurd h (by decide)
  faultCodeFaulted := by decide
  faultRegsClear := fun _ => ⟨rfl, rfl⟩
  faultPcIp := fun h => absurd h (by decide)
  faultValueMode := fun h => absurd h (by decide)
  faultValueOpcode := fun h => absurd h (by decide)
  faultValueAddress := fun _ h => absurd h (by decide)
  waitRunning := fun _ => ⟨rfl, rfl, by decide, by decide⟩
  waitInput := fun h => absurd h (by decide)
  waitOutput := fun _ => ⟨104, .immediate, 9, by decide, by decide, by decide⟩

theorem inv_haltedState_nil : (haltedState []).Inv where
  memCanonical := by decide
  ipBound := fun _ => by decide
  statusLegal := by decide
  haltKindHalted := by decide
  boundaryAtEnd := fun _ h => absurd h (by decide)
  faultCodeFaulted := by decide
  faultRegsClear := fun _ => ⟨rfl, rfl⟩
  faultPcIp := fun h => absurd h (by decide)
  faultValueMode := fun h => absurd h (by decide)
  faultValueOpcode := fun h => absurd h (by decide)
  faultValueAddress := fun _ h => absurd h (by decide)
  waitRunning := fun h => absurd rfl h
  waitInput := fun h => absurd h (by decide)
  waitOutput := fun h => absurd h (by decide)

theorem inv_faultedState_nil : (faultedState []).Inv where
  memCanonical := by decide
  ipBound := fun _ => by decide
  statusLegal := by decide
  haltKindHalted := by decide
  boundaryAtEnd := fun _ h => absurd h (by decide)
  faultCodeFaulted := by decide
  faultRegsClear := fun h => absurd rfl h
  faultPcIp := fun _ => rfl
  faultValueMode := fun h => absurd h (by decide)
  faultValueOpcode := fun _ => by decide
  faultValueAddress := fun _ h => absurd h (by decide)
  waitRunning := fun h => absurd rfl h
  waitInput := fun h => absurd h (by decide)
  waitOutput := fun h => absurd h (by decide)

theorem inv_inWaiting (host : List Pins) : (inWaiting host).Inv := inv_anyHost inv_inWaiting_nil host
theorem inv_outWaiting (host : List Pins) : (outWaiting host).Inv :=
  inv_anyHost inv_outWaiting_nil host
theorem inv_haltedState (host : List Pins) : (haltedState host).Inv :=
  inv_anyHost inv_haltedState_nil host
theorem inv_faultedState (host : List Pins) : (faultedState host).Inv :=
  inv_anyHost inv_faultedState_nil host

/-- One cell always fits in the block: MEM_CAPACITY is at least 1 (log 10). -/
theorem one_le_memCapacity : 1 ≤ Config.memCapacity := Nat.le_add_left 1 _

/-! ### Decoding and encoding -/

theorem witness_DecimalFieldsOfWord_zero : 0 ≤ (0 : Word).toInt := by decide
theorem witness_DecimalFieldsOfWord_digits :
    0 ≤ (1299999 : Word).toInt ∧
      (1299999 : Word).toInt = 12 * 10 ^ 5 + 9 * 10 ^ 4 + 9 * 10 ^ 3 + 9 * 10 ^ 2 + 99 := by decide
theorem witness_DecoderFollowsRemainder : 0 ≤ (0 : Word).toInt ∧ (-1 : Word).toInt < 0 := by decide
theorem witness_OnlyFiveOpcodesAreValid :
    (decodeFields 98).opc ∉ ([1, 2, 3, 4, 99] : List Int) := by decide
theorem witness_IgnoredDigitsDoNotMatter :
    0 ≤ (11101 : Word).toInt ∧ 0 ≤ (1101 : Word).toInt ∧
      (decodeFields 11101).opc = (decodeFields 1101).opc ∧
      (decodeFields 11101).m1 = (decodeFields 1101).m1 ∧
      (decodeFields 11101).m2 = (decodeFields 1101).m2 := by decide
theorem witness_DecodeEncodeRoundTrip :
    (Instr.add (.undefined 9) (.undefined 2)).wf = true ∧ (Instr.invalid (-99)).wf = true := by
  decide
theorem witness_AssemblyRoundTrip : (Asm.add (.cell 3) (.imm (-1)) 0).isInstruction = true := rfl
theorem witness_EqualReadsEqualMemories :
    ∃ m m' : Memory, m.wf = true ∧ m'.wf = true ∧ (∀ a, m.read a = m'.read a) ∧ m ≠ [] :=
  ⟨[(0, 1), (5, 2)], [(0, 1), (5, 2)], by decide, by decide, fun _ => rfl, by decide⟩

/-! ### Addresses and operands -/

theorem witness_ValidAddressesAreBelowSize :
    (-1 : Word).toInt < 0 ∧ (addState.msize.toNat : Int) ≤ (4 : Word).toInt := by decide
theorem witness_OperandWordPastEnd_out :
    (machine [1] []).msize.toNat ≤ (machine [1] []).ip.toNat + 1 := by decide
theorem witness_OperandWordPastEnd_in :
    addState.ip.toNat + 3 < addState.msize.toNat ∧ addState.mem.read (addState.ip.toNat + 3) = some 3 := by
  decide
theorem witness_OperandWordPastEnd_bound :
    (machine [1] []).sizeLegal = true ∧ (machine [1] []).ip.toNat < (machine [1] []).msize.toNat ∧
      (machine [1] []).msize.toNat ≤ (machine [1] []).ip.toNat + 3 := by decide
theorem witness_PositionOperand_bad :
    (machine [1, 4, 0, 0] []).operandWord 1 = .ok 4 ∧
      ¬(0 ≤ (4 : Word).toInt ∧ (4 : Word).toInt < (machine [1, 4, 0, 0] []).msize.toNat) := by decide
theorem witness_PositionOperand_good :
    addPos.operandWord 1 = .ok 3 ∧ 0 ≤ (3 : Word).toInt ∧ (3 : Word).toInt < addPos.msize.toNat ∧
      addPos.mem.read (3 : Word).toInt.toNat = some 0 := by decide
theorem witness_ImmediateOperandIsItself : (machine [101, -5, 0, 0] []).operandWord 1 = .ok (-5) := by
  decide
theorem witness_WriteOperand_bad :
    (machine [3, -1] []).operandWord 1 = .ok (-1) ∧ ¬(0 ≤ (-1 : Word).toInt) := by decide
theorem witness_WriteOperand_good :
    inState.operandWord 1 = .ok 1 ∧ 0 ≤ (1 : Word).toInt ∧ (1 : Word).toInt < inState.msize.toNat := by
  decide
theorem witness_UndefinedMode_first :
    0 ≤ (201 : Word).toInt ∧ (decodeFields 201).opc ∈ ([1, 2, 4] : List Int) ∧
      2 ≤ (decodeFields 201).m1 := by decide
theorem witness_UndefinedMode_second :
    (decodeFields 9102).opc ∈ ([1, 2] : List Int) ∧ (decodeFields 9102).m1 ≤ 1 ∧
      2 ≤ (decodeFields 9102).m2 := by decide
theorem witness_UndefinedMode_ignored :
    (decodeFields 20001).opc ∈ ([1, 2] : List Int) ∧ 0 ≤ (1 : Word).toInt ∧
      (decodeFields 1).opc = (decodeFields 20001).opc ∧ (decodeFields 1).m1 = (decodeFields 20001).m1 ∧
      (decodeFields 1).m2 = (decodeFields 20001).m2 ∧ (decodeFields 903).opc = 3 := by decide

/-- `30` and `40` are the sources of `addState`, cell 3 its destination. -/
theorem source1_addState : addState.SourceValue 1 .immediate 30 := ⟨30, by decide, by decide, rfl⟩
theorem source2_addState : addState.SourceValue 2 .immediate 40 := ⟨40, by decide, by decide, rfl⟩
theorem dest_addState : addState.Destination 3 3 :=
  ⟨3, by decide, by decide, by decide, by decide, by decide⟩
theorem source1_addPos : addPos.SourceValue 1 .position 0 :=
  ⟨3, by decide, by decide, by decide, by decide, by decide⟩

theorem witness_FirstDefect_bound1 : (machine [1] []).msize.toNat ≤ (machine [1] []).ip.toNat + 1 := by
  decide
theorem witness_FirstDefect_value1 :
    (machine [1, 4, 0, 0] []).operandWord 1 = .ok 4 ∧ (machine [1, 4, 0, 0] []).valid 4 = false := by
  decide
theorem witness_FirstDefect_bound2 :
    (machine [101, 0] []).SourceValue 1 .immediate 0 ∧
      (machine [101, 0] []).msize.toNat ≤ (machine [101, 0] []).ip.toNat + 2 :=
  ⟨⟨0, by decide, by decide, rfl⟩, by decide⟩
theorem witness_FirstDefect_value2 :
    (machine [101, 0, -1] []).SourceValue 1 .immediate 0 ∧
      (machine [101, 0, -1] []).operandWord 2 = .ok (-1) ∧
      (machine [101, 0, -1] []).valid (-1) = false :=
  ⟨⟨0, by decide, by decide, rfl⟩, by decide, by decide⟩
theorem witness_FirstDefect_bound3 :
    (machine [1101, 0, 0] []).SourceValue 1 .immediate 0 ∧
      (machine [1101, 0, 0] []).SourceValue 2 .immediate 0 ∧
      (machine [1101, 0, 0] []).msize.toNat ≤ (machine [1101, 0, 0] []).ip.toNat + 3 :=
  ⟨⟨0, by decide, by decide, rfl⟩, ⟨0, by decide, by decide, rfl⟩, by decide⟩
theorem witness_FirstDefect_value3 :
    (machine [1101, 0, 0, 4] []).SourceValue 1 .immediate 0 ∧
      (machine [1101, 0, 0, 4] []).SourceValue 2 .immediate 0 ∧
      (machine [1101, 0, 0, 4] []).operandWord 3 = .ok 4 ∧ (machine [1101, 0, 0, 4] []).valid 4 = false :=
  ⟨⟨0, by decide, by decide, rfl⟩, ⟨0, by decide, by decide, rfl⟩, by decide, by decide⟩
theorem witness_AluWrapsModulo :
    -2 ^ 63 ≤ (-3 : Word).toInt + (5 : Word).toInt ∧ (-3 : Word).toInt + (5 : Word).toInt < 2 ^ 63 ∧
      -2 ^ 63 ≤ (-3 : Word).toInt * (5 : Word).toInt ∧ (-3 : Word).toInt * (5 : Word).toInt < 2 ^ 63 := by
  decide

/-! ### Instructions -/

theorem witness_AddWritesWrappedSum :
    ∃ s : State, s.SourceValue 1 .immediate 30 ∧ s.SourceValue 2 .immediate 40 ∧ s.Destination 3 3 :=
  ⟨addState, source1_addState, source2_addState, dest_addState⟩
theorem witness_AddWritesWrappedSum_position :
    ∃ s : State, s.SourceValue 1 .position 0 ∧ s.SourceValue 2 .immediate 2 ∧ s.Destination 3 0 :=
  ⟨addPos, source1_addPos, ⟨2, by decide, by decide, rfl⟩,
    ⟨0, by decide, by decide, by decide, by decide, by decide⟩⟩
theorem witness_MulWritesWrappedProduct :
    ∃ s : State, s.SourceValue 1 .immediate (-3) ∧ s.SourceValue 2 .immediate 5 ∧ s.Destination 3 0 :=
  ⟨machine [1102, -3, 5, 0] [], ⟨-3, by decide, by decide, rfl⟩, ⟨5, by decide, by decide, rfl⟩,
    ⟨0, by decide, by decide, by decide, by decide, by decide⟩⟩
theorem witness_InTakesOfferedValue :
    ∃ s : State, s.Destination 1 1 ∧ s.wait = .input ∧ s.pins.inValid = true :=
  ⟨inWaiting [offer 7], ⟨1, by decide, by decide, by decide, by decide, by decide⟩, rfl, rfl⟩
theorem witness_InWaits_begins : ∃ s : State, s.Destination 1 1 ∧ s.wait ≠ .input :=
  ⟨inState, ⟨1, by decide, by decide, by decide, by decide, by decide⟩, by decide⟩
theorem witness_InWaits_goes_on :
    ∃ s : State, s.Destination 1 1 ∧ s.wait = .input ∧ s.pins.inValid = false :=
  ⟨inWaiting [], ⟨1, by decide, by decide, by decide, by decide, by decide⟩, rfl, rfl⟩
theorem witness_InWaits_bound : (machine [3] []).msize.toNat ≤ (machine [3] []).ip.toNat + 1 := by
  decide
theorem witness_InWaits_bad :
    (machine [3, 2] []).operandWord 1 = .ok 2 ∧ (machine [3, 2] []).valid 2 = false := by decide
theorem witness_OutEmitsItsOperand :
    ∃ s : State, s.SourceValue 1 .immediate 9 ∧ s.wait = .output ∧ s.pins.outReady = true :=
  ⟨outWaiting [accept], ⟨9, by decide, by decide, rfl⟩, rfl, rfl⟩
theorem witness_OutEmitsItsOperand_position :
    ∃ s : State, s.SourceValue 1 .position 1 ∧ s.wait = .output ∧ s.pins.outReady = true :=
  ⟨{ machine [4, 1] [accept] with wait := .output },
    ⟨1, by decide, by decide, by decide, by decide, by decide⟩, rfl, rfl⟩
theorem witness_OutWaits_begins : ∃ s : State, s.SourceValue 1 .immediate 9 ∧ s.wait ≠ .output :=
  ⟨machine [104, 9] [], ⟨9, by decide, by decide, rfl⟩, by decide⟩
theorem witness_OutWaits_goes_on :
    ∃ s : State, s.SourceValue 1 .immediate 9 ∧ s.wait = .output ∧ s.pins.outReady = false :=
  ⟨outWaiting [], ⟨9, by decide, by decide, rfl⟩, rfl, rfl⟩
theorem witness_OutWaits_bound : (machine [4] []).msize.toNat ≤ (machine [4] []).ip.toNat + 1 := by
  decide
theorem witness_OutWaits_bad :
    (machine [4, 2] []).operandWord 1 = .ok 2 ∧ (machine [4, 2] []).valid 2 = false := by decide
theorem witness_HaltEndsTheRun :
    0 ≤ (199 : Word).toInt ∧ (199 : Word).toInt % 100 = 99 ∧
      (machine [99] []).ip.toNat + 1 = (machine [99] []).msize.toNat := by decide
theorem witness_DivRaises : 0 ≤ (1150 : Word).toInt ∧ (1150 : Word).toInt % 100 = 50 := by decide
theorem witness_JgeRaises : 0 ≤ (1160 : Word).toInt ∧ (1160 : Word).toInt % 100 = 60 := by decide
theorem witness_InvalidRaises :
    Int.tmod (-1 : Word).toInt 100 ∉ ([1, 2, 3, 4, 50, 60, 99] : List Int) ∧
      Int.tmod (98 : Word).toInt 100 ∉ ([1, 2, 3, 4, 50, 60, 99] : List Int) := by decide

/-! ### Frames and faults -/

theorem witness_AluFrame_writes :
    ∃ t, exec (.add .immediate .immediate) addState = .next t ∧ addState.writeOperand 3 = .ok 3 :=
  ⟨_, rfl, by decide⟩
theorem witness_AluFrame_faults :
    ∃ t, exec (.mul .position .position) (machine [2] []) = .next t ∧
      ∀ d, (machine [2] []).writeOperand 3 ≠ .ok d :=
  ⟨_, rfl, fun d h => by
    have h' : (machine [2] []).writeOperand 3 = .trap .badAddress 3 := by decide
    rw [h'] at h; cases h⟩
theorem witness_AluFrame_entered :
    ∃ t, exec (.add .position .position) (machine [1] []) = .next t ∧ (machine [1] []).enteredFault t :=
  ⟨_, rfl, rfl, by decide⟩
theorem witness_InFrame_takes :
    ∃ t, exec .inp (inWaiting [offer 7]) = .next t ∧ (inWaiting [offer 7]).writeOperand 1 = .ok 1 :=
  ⟨_, rfl, by decide⟩
theorem witness_InFrame_waits : ∃ t, exec .inp inState = .next t ∧ t.wait ≠ .idle :=
  ⟨_, rfl, by decide⟩
theorem witness_InFrame_faults :
    ∃ t, exec .inp (machine [3] []) = .next t ∧ (machine [3] []).enteredFault t ∧
      ∀ d, (machine [3] []).writeOperand 1 ≠ .ok d :=
  ⟨_, rfl, ⟨rfl, by decide⟩, fun d h => by
    have h' : (machine [3] []).writeOperand 1 = .trap .badAddress 1 := by decide
    rw [h'] at h; cases h⟩
theorem witness_NonStoringFrame_out :
    ∃ t, exec (.out .immediate) (outWaiting [accept]) = .next t ∧ t.outputs = [9] :=
  ⟨_, rfl, by decide⟩
theorem witness_NonStoringFrame_out_faults :
    ∃ t, exec (.out .position) (machine [4] []) = .next t ∧ (machine [4] []).enteredFault t :=
  ⟨_, rfl, rfl, by decide⟩
theorem witness_NonStoringFrame_others :
    (∃ t, exec .halt addState = .next t) ∧ (∃ t, exec .div addState = .next t) ∧
      (∃ t, exec .jge addState = .next t) ∧ ∃ t, exec (.invalid 7) addState = .next t :=
  ⟨⟨_, rfl⟩, ⟨_, rfl⟩, ⟨_, rfl⟩, _, rfl⟩
theorem witness_FaultEntryChangesNothingElse :
    ∃ t, addState.status ≠ .faulted ∧ exec .div addState = .next t ∧ t.status = .faulted :=
  ⟨_, by decide, rfl, rfl⟩
/-- The last clause's premises, in the state the machine is in after reset. -/
theorem witness_FaultEntry_running :
    ∃ t, State.reset.Inv ∧ State.reset.status = .running ∧ exec .div State.reset = .next t ∧
      t.status = .faulted :=
  ⟨_, inv_of_fresh (s := State.reset) rfl (by decide) rfl rfl rfl rfl rfl rfl, rfl, rfl, rfl⟩
/-- One faulting instance of each instruction that raises a fault. -/
theorem witness_EachInstructionRaisesItsFaults :
    ((machine [1] []).sizeLegal = true ∧ (machine [1] []).ip.toNat < (machine [1] []).msize.toNat) ∧
    (∃ t, exec (.add .position .position) (machine [1] []) = .next t ∧ t.faultCode = .badAddress) ∧
    (∃ t, exec (.mul (.undefined 9) .position) (machine [1] []) = .next t ∧
      t.faultCode = .invalidMode) ∧
    (∃ t, exec .inp (machine [1] []) = .next t ∧ t.status = .faulted) ∧
    (∃ t, exec (.out (.undefined 2)) (machine [1] []) = .next t ∧ t.faultCode = .invalidMode) ∧
    ∃ t, exec .jge (machine [1] []) = .next t ∧ t.status = .faulted :=
  ⟨by decide, ⟨_, rfl, by decide⟩, ⟨_, rfl, rfl⟩, ⟨_, rfl, by decide⟩, ⟨_, rfl, rfl⟩, _, rfl, rfl⟩

/-! ### The step -/

theorem ready_addState : addState.ready := ⟨rfl, rfl, by decide, rfl⟩
theorem witness_StepRunsDecodedInstruction :
    ∃ w t, addState.ready ∧ addState.ip.toNat < addState.msize.toNat ∧
      addState.mem.read addState.ip.toNat = some w ∧ decode w = .add .immediate .immediate ∧
      exec (.add .immediate .immediate) addState = .next t :=
  ⟨1101, _, ready_addState, by decide, by decide, by decide, rfl⟩
/-- A run whose ADD reads a cell nobody loaded. -/
theorem witness_StepRunsDecodedInstruction_refused :
    ∃ s : State, s.ready ∧ s.ip.toNat < s.msize.toNat ∧ s.mem.read s.ip.toNat = some 1 ∧
      exec (decode 1) s = .refused (.unloadedCell 1) :=
  ⟨{ State.reset with mem := [(0, 1)], msize := 4 }, ⟨rfl, rfl, by decide, rfl⟩, by decide,
    by decide, rfl⟩
theorem witness_BoundaryEndsTheRun :
    ∃ s : State, s.ready ∧ s.msize.toNat ≤ s.ip.toNat :=
  ⟨{ addState with ip := 4 }, ⟨rfl, rfl, by decide, rfl⟩, by decide⟩
theorem witness_TerminalStatesHold_halted :
    ∃ s : State, s.Inv ∧ s.status = .halted ∧ s.inReset = false ∧ s.pins.rst = false :=
  ⟨haltedState [], inv_haltedState [], rfl, rfl, rfl⟩
theorem witness_TerminalStatesHold_faulted :
    ∃ s : State, s.Inv ∧ s.status = .faulted ∧ s.inReset = false ∧ s.pins.rst = false :=
  ⟨faultedState [], inv_faultedState [], rfl, rfl, rfl⟩
theorem witness_StatusChanges_halts :
    ∃ t, step (machine [99] []) = .next t ∧ t.status ≠ (machine [99] []).status :=
  ⟨_, rfl, by decide⟩
theorem witness_StatusChanges_faults :
    ∃ t, step (machine [50] []) = .next t ∧ t.status ≠ (machine [50] []).status :=
  ⟨_, rfl, by decide⟩
theorem witness_StepsWithoutMeaning_size :
    State.reset.inReset = false ∧ State.reset.pins.rst = false ∧ State.reset.status = .running ∧
      State.reset.sizeLegal = false := by decide
theorem witness_StepsWithoutMeaning_cell :
    ∃ s : State, s.inReset = false ∧ s.ready ∧ s.ip.toNat < s.msize.toNat ∧
      s.mem.read s.ip.toNat = none :=
  ⟨{ State.reset with msize := 1 }, rfl, ⟨rfl, rfl, by decide, rfl⟩, by decide, by decide⟩
theorem witness_StepsWithoutMeaning_stuck :
    ∃ s : State, s.inReset = false ∧ s.pins.rst = false ∧ s.status = .reserved :=
  ⟨{ State.reset with status := .reserved }, rfl, rfl, rfl⟩
/-- P3: the ADD writes 99 into the next word, and the HALT runs. -/
theorem witness_NextFetchSeesTheWrite :
    ∃ (s : State) (u : State), s.ready ∧ s.ip.toNat < s.msize.toNat ∧
      s.mem.read s.ip.toNat = some 1101 ∧ decode 1101 = .add .immediate .immediate ∧
      (99 : Int) = (90 : Word).toInt + (9 : Word).toInt ∧ s.SourceValue 1 .immediate 90 ∧
      s.SourceValue 2 .immediate 9 ∧ s.Destination 3 (s.ip.toNat + 4) ∧
      s.popHost.pins.rst = false ∧
      exec (decode (BitVec.ofInt 64 99))
        { s with mem := s.mem.write (s.ip.toNat + 4) (BitVec.ofInt 64 99), ip := s.ip + 4
                 host := s.host.tail } = .next u :=
  ⟨machine [1101, 90, 9, 4, 7] [], _, ⟨rfl, rfl, by decide, rfl⟩, by decide, by decide, by decide,
    by decide, ⟨90, by decide, by decide, rfl⟩, ⟨9, by decide, by decide, rfl⟩,
    ⟨4, by decide, by decide, by decide, by decide, by decide⟩, rfl, rfl⟩
theorem witness_PositionAndImmediateAgree :
    ∃ s s' : State, s.SourceValue 1 .position 0 ∧ s.SourceValue 2 .immediate 2 ∧ s.Destination 3 0 ∧
      s' = { s with mem := s.mem.write (s.ip.toNat + 1) 0 } ∧ s'.SourceValue 2 .immediate 2 :=
  ⟨addPos, _, source1_addPos, ⟨2, by decide, by decide, rfl⟩,
    ⟨0, by decide, by decide, by decide, by decide, by decide⟩, rfl, ⟨2, by decide, by decide, rfl⟩⟩
/-- `ADD #2, [3], [0]`: the second operand in position mode, at the last cell. -/
theorem witness_PositionAndImmediateAgree_second :
    ∃ s s' : State, s.Destination 3 0 ∧ s.SourceValue 1 .immediate 2 ∧ s.SourceValue 2 .position 0 ∧
      s' = { s with mem := s.mem.write (s.ip.toNat + 2) 0 } ∧ s'.SourceValue 1 .immediate 2 :=
  ⟨machine [101, 2, 3, 0] [], _, ⟨0, by decide, by decide, by decide, by decide, by decide⟩,
    ⟨2, by decide, by decide, rfl⟩, ⟨3, by decide, by decide, by decide, by decide, by decide⟩, rfl,
    ⟨2, by decide, by decide, rfl⟩⟩
/-- Two states that differ in a fault register and in the outputs. -/
theorem witness_InstructionsSeeOnlyMemoryAndPorts :
    ∃ s t : State, s.sameView t ∧ s ≠ t ∧ ∃ s', exec (.add .immediate .immediate) s = .next s' :=
  ⟨addState, { addState with faultValue := 5, outputs := [1] }, ⟨rfl, rfl, rfl, rfl, rfl⟩, by decide,
    _, rfl⟩
theorem witness_InstructionsSeeOnlyMemoryAndPorts_refused :
    ∃ s t : State, s.sameView t ∧ exec .inp s = .refused (.unloadedCell 1) :=
  ⟨{ State.reset with msize := 2 }, { State.reset with msize := 2 }, ⟨rfl, rfl, rfl, rfl, rfl⟩, by rfl⟩

/-! ### Streams and ports -/

theorem witness_Transfers_in :
    ∃ s t : State, s.Inv ∧ s.inReset = false ∧ step s = .next t ∧ s.inReady = true ∧
      s.pins.inValid = true :=
  ⟨inWaiting [offer 7], _, inv_inWaiting _, rfl, rfl, by decide, rfl⟩
theorem witness_Transfers_out :
    ∃ s t : State, s.Inv ∧ s.inReset = false ∧ step s = .next t ∧ s.outValid = true ∧
      s.pins.outReady = true :=
  ⟨outWaiting [accept], _, inv_outWaiting _, rfl, rfl, by decide, rfl⟩
theorem witness_OfferedOutputIsStable :
    ∃ s t : State, s.Inv ∧ s.outValid = true ∧ s.pins.outReady = false ∧ step s = .next t :=
  ⟨outWaiting [], _, inv_outWaiting _, by decide, rfl, rfl⟩
theorem witness_ResultIsCellZeroWhenHalted :
    ∃ s t : State, s.status = .halted ∧ s.inReset = false ∧ s.pins.rst = false ∧ step s = .next t :=
  ⟨haltedState [], _, rfl, rfl, rfl, rfl⟩
theorem witness_StatusPortsShowTheCodes :
    ∃ s : State, s.Inv ∧ s.status = .faulted ∧ s.faultCode = .invalidOpcode :=
  ⟨faultedState [], inv_faultedState [], rfl, rfl⟩
theorem witness_InspectionDescribesTheWord :
    addState.sizeLegal = true ∧ (3 : Word).toNat < addState.msize.toNat ∧
      addState.mem.read (3 : Word).toNat = some 3 := by decide
theorem witness_FaultReportNamesTheInstruction :
    ∃ s : State, s.Inv ∧ s.status = .faulted ∧ s.sizeLegal = true ∧ s.ip.toNat < s.msize.toNat ∧
      s.mem.read s.ip.toNat = some 50 :=
  ⟨faultedState [], inv_faultedState [], rfl, by decide, by decide, by decide⟩
theorem witness_HostReads_terminal :
    (haltedState []).status = .halted ∧
      (haltedState []).pins.rdAddr.toNat < (haltedState []).msize.toNat := by decide
theorem witness_HostReads_reset : (machine [99] [resets]).pins.rst = true := rfl
theorem witness_HostReads_beyond :
    ∃ s : State, s.msize.toNat ≤ s.pins.rdAddr.toNat :=
  ⟨haltedState [{ Pins.quiet with rdAddr := 1 }], by decide⟩
theorem witness_HostReads_running : addState.pins.rst = false ∧ addState.status = .running := by decide

/-! ### Reset, loading, runs -/

theorem witness_ResetEdge : ∃ s : State, s.pins.rst = true := ⟨machine [99] [resets], rfl⟩
theorem witness_Release_good :
    ∃ s : State, s.pins.rst = false ∧ s.inReset = true ∧ 1 ≤ s.msize.toNat ∧
      s.msize.toNat < 2 ^ 63 ∧ s.msize.toNat ≤ Config.memCapacity :=
  ⟨{ machine [99] [] with inReset := true }, rfl, rfl, by decide, by decide, one_le_memCapacity⟩
theorem witness_Release_bad :
    ∃ s : State, s.pins.rst = false ∧ s.inReset = true ∧
      ¬(1 ≤ s.msize.toNat ∧ s.msize.toNat < 2 ^ 63 ∧ s.msize.toNat ≤ Config.memCapacity) :=
  ⟨{ State.reset with inReset := true }, rfl, rfl, fun h => absurd h.1 (by decide)⟩
theorem witness_ResetPulseRestartsFromMemory :
    ∃ (s : State) (p q : Pins), s.host = [p, q] ∧ p.rst = true ∧ p.ldWe = false ∧
      p.ldSizeWe = false ∧ q.rst = false ∧ s.sizeLegal = true ∧ s.msize.toNat ≤ Config.memCapacity :=
  ⟨haltedState [resets, Pins.quiet], resets, Pins.quiet, rfl, rfl, rfl, rfl, rfl, by decide,
    one_le_memCapacity⟩
theorem witness_LoadedImageStandsInMemory :
    ∃ (s : State) (image : List Word), 1 ≤ image.length ∧ image.length < 2 ^ 63 ∧
      image.length ≤ Config.memCapacity ∧ s.host = loadDrives image ++ [accept] :=
  ⟨{ State.reset with host := loadDrives [99] ++ [accept] }, [99], by decide, by decide,
    one_le_memCapacity, rfl⟩
theorem witness_PlacedInstructionRunsNext :
    ∃ t, State.reset.ip.toNat + 4 < 2 ^ 63 ∧ decodeTableWord 64 99 = some .halt ∧
      exec .halt (State.reset.withFetchWord 64 99) = .next t :=
  ⟨_, by decide, by decide, rfl⟩
theorem witness_StepKeepsTheInvariant : ∃ s t : State, s.Inv ∧ step s = .next t :=
  ⟨outWaiting [accept], _, inv_outWaiting _, rfl⟩
theorem witness_SizeIsFixedAndIpNeverFalls :
    ∃ t, addState.pins.rst = false ∧ addState.inReset = false ∧ step addState = .next t :=
  ⟨_, rfl, rfl, rfl⟩

theorem loaded_halt (host : List Pins) : (machine [99] host).fullyLoaded := by
  intro a ha
  have h : a < 1 := ha
  obtain rfl : a = 0 := by omega
  rfl

/-- A one-cell HALT program: no state of its run waits. -/
theorem witness_RunWithoutWaitEnds :
    ∃ s : State, s.Inv ∧ s.status = .running ∧ s.inReset = false ∧ s.sizeLegal = true ∧
      s.fullyLoaded ∧ s.noReset ∧
      ∀ k t, k ≤ s.msize.toNat + 1 → steps k s = .next t → t.wait = .idle := by
  refine ⟨machine [99] [], inv_of_fresh (by decide) (by decide) rfl rfl rfl rfl rfl rfl, rfl, rfl,
    by decide, loaded_halt [], by simp [State.noReset, machine], ?_⟩
  intro k t hk h
  have hk' : k ≤ 2 := hk
  interval_cases k <;> (cases h; rfl)
theorem witness_RunWithEagerHostEnds :
    ∃ s : State, s.Inv ∧ s.status = .running ∧ s.inReset = false ∧ s.sizeLegal = true ∧
      s.fullyLoaded ∧ s.noReset ∧ s.eagerFor (s.msize.toNat + 1) := by
  refine ⟨machine [99] [{ accept with inValid := true }, { accept with inValid := true }],
    inv_of_fresh (by decide) (by decide) rfl rfl rfl rfl rfl rfl, rfl, rfl, by decide,
    loaded_halt _, ?_, ?_, ?_⟩
  · simp [State.noReset, machine, accept, Pins.quiet]
  · decide
  · simp [machine, accept]
theorem witness_UnansweredWait_in :
    ∃ s : State, s.Inv ∧ (∀ p ∈ s.host, p.rst = false) ∧ s.wait = .input ∧
      ∀ p ∈ s.host, p.inValid = false :=
  ⟨inWaiting [accept], inv_inWaiting _, by simp [inWaiting, machine, accept, Pins.quiet], rfl,
    by simp [inWaiting, machine, accept, Pins.quiet]⟩
theorem witness_UnansweredWait_out :
    ∃ s : State, s.Inv ∧ (∀ p ∈ s.host, p.rst = false) ∧ s.wait = .output ∧
      ∀ p ∈ s.host, p.outReady = false :=
  ⟨outWaiting [offer 7], inv_outWaiting _, by simp [outWaiting, machine, offer, Pins.quiet], rfl,
    by simp [outWaiting, machine, offer, Pins.quiet]⟩

end Sys2Proof.Tests
end

section
/-! Valid addresses (20_memory.md R29), on the signed reading of the value. -/

namespace Sys2Proof.Machine

theorem State.valid_iff_toInt (s : State) (v : Word) :
    s.valid v = true ↔ 0 ≤ v.toInt ∧ v.toInt < s.msize.toNat :=
  decide_eq_true_iff

theorem State.valid_eq_false_iff_toInt (s : State) (v : Word) :
    s.valid v = false ↔ v.toInt < 0 ∨ (s.msize.toNat : Int) ≤ v.toInt := by
  rw [← Bool.not_eq_true, s.valid_iff_toInt v, not_and_or, not_le, not_lt]

/-- Settles O10: the two exclusions are the two ways to lie outside `0 <= v < N`. -/
theorem validAddressesAreBelowSize : Obligations.ValidAddressesAreBelowSize := fun s v =>
  ⟨s.valid_iff_toInt v,
    fun negative => (s.valid_eq_false_iff_toInt v).mpr (.inl negative),
    fun pastEnd => (s.valid_eq_false_iff_toInt v).mpr (.inr pastEnd)⟩

end Sys2Proof.Machine
end

section
/-! The decoder (30_encoding.md R46 to R48): what each opcode decodes to, and the InvalidOpcode fault
of every opcode outside VALID. -/

namespace Sys2Proof

theorem decodeFields_opc (w : Word) : (decodeFields w).opc = rem w.toInt 100 := by
  unfold decodeFields
  split <;> rfl

/-- The opcode of the selected instruction is the decoded one (30_encoding.md R47). -/
theorem Fields.opcode_instr (f : Fields) : f.instr.opcode = f.opc := by
  unfold Fields.instr
  repeat' split
  all_goals simp_all [Instr.opcode]

/-- The digit of weight 10^4 selects nothing: it is the digit of a write operand (R51). -/
theorem Fields.instr_congr {f g : Fields} (opcs : f.opc = g.opc) (firsts : f.m1 = g.m1)
    (seconds : f.m2 = g.m2) : f.instr = g.instr := by
  simp only [Fields.instr, opcs, firsts, seconds]

theorem decode_wf (w : Word) : (decode w).wf = true :=
  have ⟨first, second, _⟩ := decodeFields_digits_le w
  Fields.wf_instr first second (decodeFields_opc_range w)

theorem decode_of_opc_eq_one {w : Word} (h : (decodeFields w).opc = 1) :
    decode w = .add (Mode.ofDigit (decodeFields w).m1) (Mode.ofDigit (decodeFields w).m2) := by
  simp [decode, Fields.instr, h]

theorem decode_of_opc_eq_two {w : Word} (h : (decodeFields w).opc = 2) :
    decode w = .mul (Mode.ofDigit (decodeFields w).m1) (Mode.ofDigit (decodeFields w).m2) := by
  simp [decode, Fields.instr, h]

theorem decode_of_opc_eq_three {w : Word} (h : (decodeFields w).opc = 3) : decode w = .inp := by
  simp [decode, Fields.instr, h]

theorem decode_of_opc_eq_four {w : Word} (h : (decodeFields w).opc = 4) :
    decode w = .out (Mode.ofDigit (decodeFields w).m1) := by
  simp [decode, Fields.instr, h]

/-- Every opcode with a row of its own is positive (30_encoding.md R47). -/
theorem decode_of_opc_nonpos {w : Word} (h : (decodeFields w).opc ≤ 0) :
    decode w = .invalid (decodeFields w).opc := by
  simp only [decode, Fields.instr]
  repeat rw [if_neg (by omega)]

/-- Well-formedness keeps the five executable opcodes out of the row INVALID (R48). -/
theorem Instr.valid_iff_opcode_mem {i : Instr} (wf : i.wf = true) :
    i.valid = true ↔ i.opcode ∈ ([1, 2, 3, 4, 99] : List Int) := by
  cases i with
  | invalid opc =>
    simp only [Instr.wf, namedOpcodes, Bool.and_eq_true, decide_eq_true_eq] at wf
    obtain ⟨-, unnamed⟩ := wf
    simp_all [Instr.valid, Instr.opcode]
  | _ => simp [Instr.valid, Instr.opcode]

theorem decode_valid_iff (w : Word) :
    (decode w).valid = true ↔ (decodeFields w).opc ∈ ([1, 2, 3, 4, 99] : List Int) := by
  rw [Instr.valid_iff_opcode_mem (decode_wf w), decode, Fields.opcode_instr]

namespace Machine

/-- Every instruction outside VALID takes one and the same fault entry (R48). -/
theorem exec_of_valid_eq_false {i : Instr} (invalid : i.valid = false) (s : State) :
    exec i s = .next (s.takeFault .invalidOpcode (wrap64 i.opcode)) := by
  cases i with
  | div | jge | invalid opc => rfl
  | add m1 m2 | mul m1 m2 | inp | out m1 | halt => cases invalid

/-- Settles O3: a negative word's opcode is not positive, so no row but INVALID takes it. -/
theorem decoderFollowsRemainder : Obligations.DecoderFollowsRemainder := by
  intro w
  refine ⟨decodeFields_opc w, fun nonneg => ?_, fun negative => ?_⟩
  · rw [decodeFields_of_nonneg nonneg]
    dsimp only
    omega
  · obtain ⟨lower, upper⟩ := rem_of_neg negative
    rw [← decodeFields_opc] at lower upper
    have fields := decodeFields_of_neg negative
    have decoded := decode_of_opc_nonpos upper
    refine ⟨by rw [fields], by rw [fields], by rw [fields], lower, upper, decoded, fun s => ?_⟩
    rw [decoded]
    rfl

/-- Settles O4: the opcode of the decoded instruction is the decoded opcode, and the instructions
outside VALID share one fault entry. -/
theorem onlyFiveOpcodesAreValid : Obligations.OnlyFiveOpcodesAreValid := by
  refine fun w => ⟨decode_valid_iff w, fun outside s => ?_⟩
  have invalid : (decode w).valid = false :=
    Bool.eq_false_iff.mpr (mt (decode_valid_iff w).mp outside)
  rw [exec_of_valid_eq_false invalid, decode, Fields.opcode_instr]
  rfl

end Machine

end Sys2Proof
end

section
/-! The mode pass (30_encoding.md R53): an undefined digit of a read operand ends the instruction
before any operand word is fetched. -/

namespace Sys2Proof.Machine

theorem checkMode_ofDigit_of_le_one {d : Nat} (h : d ≤ 1) : checkMode (Mode.ofDigit d) = .ok () := by
  interval_cases d <;> rfl

theorem checkMode_ofDigit_of_two_le {d : Nat} (h : 2 ≤ d) :
    checkMode (Mode.ofDigit d) = .trap .invalidMode (BitVec.ofNat 64 d) := by
  rw [Mode.ofDigit, if_neg (by omega), if_neg (by omega), checkMode]

theorem State.aluInstr_of_checkMode_first_trap {m1 : Mode} {c : FaultCode} {v : Word}
    (first : checkMode m1 = .trap c v) (s : State) (op : Word → Word → Word) (m2 : Mode) :
    s.aluInstr op m1 m2 = .next (s.takeFault c v) := by
  simp [State.aluInstr, State.resolveBinary, first]

theorem State.aluInstr_of_checkMode_second_trap {m1 m2 : Mode} {c : FaultCode} {v : Word}
    (first : checkMode m1 = .ok ()) (second : checkMode m2 = .trap c v) (s : State)
    (op : Word → Word → Word) : s.aluInstr op m1 m2 = .next (s.takeFault c v) := by
  simp [State.aluInstr, State.resolveBinary, first, second]

theorem exec_out_of_checkMode_trap {m1 : Mode} {c : FaultCode} {v : Word}
    (first : checkMode m1 = .trap c v) (s : State) :
    exec (.out m1) s = .next (s.takeFault c v) := by
  simp [State.resolveSource, first]

/-- ADD and MUL are one instruction form with two ALU operations (41_arithmetic.md R76, R77). -/
theorem exec_decode_eq_aluInstr {w : Word} (h : (decodeFields w).opc ∈ ([1, 2] : List Int)) :
    ∃ op, ∀ s : State, exec (decode w) s =
      s.aluInstr op (Mode.ofDigit (decodeFields w).m1) (Mode.ofDigit (decodeFields w).m2) := by
  obtain add | mul : (decodeFields w).opc = 1 ∨ (decodeFields w).opc = 2 := by simpa using h
  · exact ⟨aluAdd, fun s => by rw [decode_of_opc_eq_one add, exec_add]⟩
  · exact ⟨aluMul, fun s => by rw [decode_of_opc_eq_two mul, exec_mul]⟩

theorem exec_decode_of_first_digit_undefined {w : Word}
    (h : (decodeFields w).opc ∈ ([1, 2, 4] : List Int)) (first : 2 ≤ (decodeFields w).m1)
    (s : State) :
    exec (decode w) s =
      .next (s.takeFault .invalidMode (BitVec.ofNat 64 (decodeFields w).m1)) := by
  have trap := checkMode_ofDigit_of_two_le first
  obtain alu | out : (decodeFields w).opc ∈ ([1, 2] : List Int) ∨ (decodeFields w).opc = 4 := by
    simpa [or_assoc] using h
  · obtain ⟨op, executed⟩ := exec_decode_eq_aluInstr alu
    rw [executed, State.aluInstr_of_checkMode_first_trap trap]
  · rw [decode_of_opc_eq_four out, exec_out_of_checkMode_trap trap]

theorem exec_decode_of_second_digit_undefined {w : Word}
    (h : (decodeFields w).opc ∈ ([1, 2] : List Int)) (first : (decodeFields w).m1 ≤ 1)
    (second : 2 ≤ (decodeFields w).m2) (s : State) :
    exec (decode w) s =
      .next (s.takeFault .invalidMode (BitVec.ofNat 64 (decodeFields w).m2)) := by
  obtain ⟨op, executed⟩ := exec_decode_eq_aluInstr h
  rw [executed, State.aluInstr_of_checkMode_second_trap (checkMode_ofDigit_of_le_one first)
    (checkMode_ofDigit_of_two_le second)]

/-- Settles O15: the mode pass reports the lowest undefined digit, and the digit of a write operand
is no part of the decoded instruction. -/
theorem undefinedModeRaisesInvalidMode : Obligations.UndefinedModeRaisesInvalidMode := by
  intro w s _
  refine ⟨fun opc first => exec_decode_of_first_digit_undefined opc first s,
    fun opc first second => exec_decode_of_second_digit_undefined opc first second s,
    fun _ w' _ opcs firsts seconds => ?_, fun inp => by rw [decode_of_opc_eq_three inp]⟩
  have sameInstr : decode w' = decode w := Fields.instr_congr opcs firsts seconds
  rw [sameInstr]

end Sys2Proof.Machine
end

section
/-! One operand whose word has been fetched (30_encoding.md R55 to R57). -/

namespace Sys2Proof.Machine

section

variable {s : State} {k : Nat} {raw : Word}

theorem State.valid_eq_false_of_outside (outside : ¬(0 ≤ raw.toInt ∧ raw.toInt < s.msize.toNat)) :
    s.valid raw = false :=
  Bool.eq_false_iff.mpr (mt (s.valid_iff_toInt raw).mp outside)

theorem toNat_toInt_of_nonneg (nonneg : 0 ≤ raw.toInt) : raw.toInt.toNat = raw.toNat := by
  have sle : BitVec.sle 0#64 raw = true := by simpa [BitVec.sle] using nonneg
  exact BitVec.toNat_toInt_of_sle sle

theorem State.readOperand_position (fetched : s.operandWord k = .ok raw) :
    s.readOperand k .position = s.dereference raw := by
  rw [State.readOperand, fetched, Resolved.bind_ok]

theorem State.readOperand_immediate (fetched : s.operandWord k = .ok raw) :
    s.readOperand k .immediate = .ok raw := by
  rw [State.readOperand, fetched, Resolved.bind_ok]

theorem State.writeOperand_of_outside (fetched : s.operandWord k = .ok raw)
    (outside : ¬(0 ≤ raw.toInt ∧ raw.toInt < s.msize.toNat)) :
    s.writeOperand k = .trap .badAddress raw :=
  State.writeOperand_eq_trap.mpr (.inr ⟨fetched, State.valid_eq_false_of_outside outside, rfl⟩)

theorem exec_inp_of_writeOperand_trap {c : FaultCode} {v : Word}
    (bad : s.writeOperand 1 = .trap c v) : exec .inp s = .next (s.takeFault c v) := by
  rw [exec_inp, State.resolveDest, bad, Resolved.run_trap]

end

/-- Settles O12: a fetched position operand is the dereference of its word. -/
theorem positionOperandReadsItsCell : Obligations.PositionOperandReadsItsCell := by
  intro s k raw fetched
  rw [State.readOperand_position fetched]
  refine ⟨fun outside => ?_, fun nonneg below v stored => ?_⟩
  · exact State.dereference_eq_trap.mpr ⟨State.valid_eq_false_of_outside outside, rfl, rfl⟩
  · rw [toNat_toInt_of_nonneg nonneg] at stored
    exact State.dereference_eq_ok.mpr ⟨(s.valid_iff_toInt raw).mpr ⟨nonneg, below⟩, stored⟩

/-- Settles O13: immediate mode has no check after the fetch of the word. -/
theorem immediateOperandIsItself : Obligations.ImmediateOperandIsItself :=
  fun _ _ _ fetched => State.readOperand_immediate fetched

/-- Settles O14: IN resolves its destination before it looks at WAIT or at what the host offers. -/
theorem writeOperandIsCheckedAddress : Obligations.WriteOperandIsCheckedAddress := by
  intro s k raw fetched
  refine ⟨fun outside => ?_, fun nonneg below => ?_⟩
  · have bad := State.writeOperand_of_outside fetched outside
    refine ⟨bad, ?_⟩
    rintro rfl
    exact exec_inp_of_writeOperand_trap bad
  · rw [toNat_toInt_of_nonneg nonneg]
    exact State.writeOperand_eq_ok.mpr
      ⟨raw, fetched, (s.valid_iff_toInt raw).mpr ⟨nonneg, below⟩, rfl⟩

end Sys2Proof.Machine
end

section
/-! The ends of a run (40_cycle_and_control.md R70, R71, R73): HALT, the boundary, and the terminal
states, in which the core holds. -/

namespace Sys2Proof

theorem decode_of_opc_eq_ninetyNine {w : Word} (h : (decodeFields w).opc = 99) :
    decode w = .halt := by
  simp [decode, Fields.instr, h]

namespace Machine

section

variable {s : State}

theorem State.result_of_halted (halted : s.status = .halted) : s.result = s.mem.read 0 := by
  simp [State.result, State.resultValid, halted]

/-- Away from reset the core itself moves (60_exceptions.md R95). -/
theorem step_of_out_of_reset (noRst : s.pins.rst = false) (released : s.inReset = false) :
    step s = mapNext State.popHost s.coreStep := by
  simp [step, State.tick, State.event, noRst, released]

theorem State.coreStep_of_running (running : s.status = .running) : s.coreStep = s.runStep := by
  rw [State.coreStep, running]

theorem State.coreStep_of_terminal (terminal : s.status = .halted ∨ s.status = .faulted) :
    s.coreStep = .next s := by
  obtain halted | faulted := terminal
  · rw [State.coreStep, halted]
  · rw [State.coreStep, faulted]

theorem State.runStep_of_boundary (legal : s.sizeLegal = true)
    (boundary : s.msize.toNat ≤ s.ip.toNat) : s.runStep = .next (s.halt true) := by
  rw [State.runStep, if_pos legal, if_pos boundary]

/-- A ready core at `ip >= N` takes the boundary's end and no other (R71). -/
theorem step_of_boundary (ready : s.ready) (boundary : s.msize.toNat ≤ s.ip.toNat) :
    step s = .next (s.halt true).popHost := by
  obtain ⟨running, released, legal, noRst⟩ := ready
  rw [step_of_out_of_reset noRst released, State.coreStep_of_running running,
    State.runStep_of_boundary legal boundary, mapNext_next]

/-- A core that is not Running waits for nothing (10_state.md R21). -/
theorem State.Inv.wait_eq_idle (inv : s.Inv) (stopped : s.status ≠ .running) : s.wait = .idle :=
  of_not_not fun waiting => stopped (inv.waitRunning waiting).1

theorem State.inReady_of_idle (idle : s.wait = .idle) : s.inReady = false := by
  simp [State.inReady, idle]

theorem State.outValid_of_idle (idle : s.wait = .idle) : s.outValid = false := by
  simp [State.outValid, idle]

end

/-- Settles O25: HALT's whole effect is its dispatch arm, and its opcode alone selects it. -/
theorem haltEndsTheRun : Obligations.HaltEndsTheRun := by
  refine fun s => ⟨exec_halt s, fun w nonneg opc => ?_, by decide, fun lastCell => ?_, ?_⟩
  · apply decode_of_opc_eq_ninetyNine
    rw [decodeFields_of_nonneg nonneg]
    exact opc
  · bv_omega
  · intro t executed
    cases executed
    exact State.result_of_halted rfl

/-- Settles O35: the step is the boundary's end, which leaves a Halted state with the same memory. -/
theorem boundaryEndsTheRun : Obligations.BoundaryEndsTheRun := by
  intro s ready boundary
  have ended := step_of_boundary ready boundary
  refine ⟨ended, fun t stepped => ?_⟩
  rw [ended] at stepped
  cases stepped
  exact State.result_of_halted rfl

/-- Settles O36: by the invariant only a Running core waits, and a terminal core's move is to hold. -/
theorem terminalStatesHold : Obligations.TerminalStatesHold := by
  intro s inv terminal released
  have stopped : s.status ≠ .running := by rcases terminal with h | h <;> simp [h]
  have idle := inv.wait_eq_idle stopped
  refine ⟨State.inReady_of_idle idle, State.outValid_of_idle idle, fun noRst => ?_⟩
  rw [step_of_out_of_reset noRst released, State.coreStep_of_terminal terminal, mapNext_next]
  rfl

end Machine

end Sys2Proof
end

section
/-! The reserved and invalid opcodes (43_reserved_and_invalid.md R88 to R90): what decodes to each, and
the fault entry that is their whole effect. -/

namespace Sys2Proof

theorem decodeFields_opc_of_nonneg {w : Word} (nonneg : 0 ≤ w.toInt) :
    (decodeFields w).opc = w.toInt % 100 := by
  rw [decodeFields_opc, rem_of_nonneg nonneg]

theorem decode_of_opc_eq_fifty {w : Word} (h : (decodeFields w).opc = 50) : decode w = .div := by
  simp [decode, Fields.instr, h]

theorem decode_of_opc_eq_sixty {w : Word} (h : (decodeFields w).opc = 60) : decode w = .jge := by
  simp [decode, Fields.instr, h]

/-- The row INVALID takes every opcode without a row of its own, of whatever sign (R90). -/
theorem decode_of_opc_not_mem_namedOpcodes {w : Word} (h : (decodeFields w).opc ∉ namedOpcodes) :
    decode w = .invalid (decodeFields w).opc := by
  simp only [namedOpcodes, List.mem_cons, List.not_mem_nil, or_false, not_or] at h
  simp [decode, Fields.instr, h]

namespace Machine

/-- Settles O26: DIV is outside VALID, whose complement shares one fault entry, and 50 selects it. -/
theorem divRaisesInvalidOpcode : Obligations.DivRaisesInvalidOpcode := fun s =>
  ⟨exec_of_valid_eq_false (i := .div) rfl s, fun _ nonneg opc =>
    decode_of_opc_eq_fifty ((decodeFields_opc_of_nonneg nonneg).trans opc)⟩

/-- Settles O27: JGE is outside VALID, whose complement shares one fault entry, and 60 selects it. -/
theorem jgeRaisesInvalidOpcode : Obligations.JgeRaisesInvalidOpcode := fun s =>
  ⟨exec_of_valid_eq_false (i := .jge) rfl s, fun _ nonneg opc =>
    decode_of_opc_eq_sixty ((decodeFields_opc_of_nonneg nonneg).trans opc)⟩

/-- Settles O28: the remainder is the decoded opcode for words of either sign, so an unnamed one
selects INVALID, which carries it into FAULT_VALUE. -/
theorem invalidRaisesInvalidOpcode : Obligations.InvalidRaisesInvalidOpcode := by
  refine fun s => ⟨fun opc => exec_of_valid_eq_false (i := .invalid opc) rfl s, fun w unnamed => ?_⟩
  have opcode : (decodeFields w).opc = Int.tmod w.toInt 100 := decodeFields_opc w
  rw [← opcode] at unnamed ⊢
  exact decode_of_opc_not_mem_namedOpcodes unnamed

end Machine

end Sys2Proof
end

section
/-! Fault entry (60_exceptions.md R93): an instruction that ends Faulted has entered a fault, with a
non-zero code, and done nothing else. -/

namespace Sys2Proof.Machine

/-! ### No trap carries FAULT_CODE 0 -/

theorem checkMode_ne_trap_noFault (m : Mode) (v : Word) : checkMode m ≠ .trap .noFault v := by
  simp [checkMode_eq_trap]

theorem State.readOperand_ne_trap_noFault (s : State) (k : Nat) (m : Mode) (v : Word) :
    s.readOperand k m ≠ .trap .noFault v := by
  simp [State.readOperand_eq_trap, State.operandWord_eq_trap, State.dereference_eq_trap]

theorem State.writeOperand_ne_trap_noFault (s : State) (k : Nat) (v : Word) :
    s.writeOperand k ≠ .trap .noFault v := by
  simp [State.writeOperand_eq_trap, State.operandWord_eq_trap]

theorem State.resolveBinary_ne_trap_noFault (s : State) (m1 m2 : Mode) (v : Word) :
    s.resolveBinary m1 m2 ≠ .trap .noFault v := by
  simp [State.resolveBinary, Resolved.bind_eq_trap, checkMode_ne_trap_noFault,
    State.readOperand_ne_trap_noFault, State.writeOperand_ne_trap_noFault]

theorem State.resolveSource_ne_trap_noFault (s : State) (m1 : Mode) (v : Word) :
    s.resolveSource m1 ≠ .trap .noFault v := by
  simp [State.resolveSource, Resolved.bind_eq_trap, checkMode_ne_trap_noFault,
    State.readOperand_ne_trap_noFault]

theorem State.resolveDest_ne_trap_noFault (s : State) (v : Word) :
    s.resolveDest ≠ .trap .noFault v :=
  s.writeOperand_ne_trap_noFault 1 v

theorem Resolved.trap_code_ne_noFault {α : Type} {r : Resolved α} {c : FaultCode} {v : Word}
    (trapped : r = .trap c v) (coded : ∀ v, r ≠ .trap .noFault v) : c ≠ .noFault := by
  rintro rfl
  exact coded v trapped

/-! ### A transfer with the host leaves STATUS alone -/

@[simp] theorem State.inputTransfer_status (s : State) (d : Nat) :
    (s.inputTransfer d).status = s.status := by
  obtain ⟨-, eq⟩ | ⟨-, -, eq⟩ | ⟨-, -, eq⟩ := s.inputTransfer_cases d <;> simp [eq]

@[simp] theorem State.outputTransfer_status (s : State) (v : Word) :
    (s.outputTransfer v).status = s.status := by
  obtain ⟨-, eq⟩ | ⟨-, -, eq⟩ | ⟨-, -, eq⟩ := s.outputTransfer_cases v <;> simp [eq]

/-! ### Faulted comes from a fault entry alone -/

theorem exec_faulted_eq_takeFault {i : Instr} {s t : State} (before : s.status ≠ .faulted)
    (executed : exec i s = .next t) (after : t.status = .faulted) :
    ∃ c v, c ≠ .noFault ∧ t = s.takeFault c v := by
  cases exec_effect executed with
  | addWrites | mulWrites => exact absurd after before
  | addFaults m1 m2 c v trapped | mulFaults m1 m2 c v trapped =>
    exact ⟨c, v, Resolved.trap_code_ne_noFault trapped (s.resolveBinary_ne_trap_noFault m1 m2), rfl⟩
  | inTransfer d => exact absurd ((s.inputTransfer_status d).symm.trans after) before
  | inFaults c v trapped =>
    exact ⟨c, v, Resolved.trap_code_ne_noFault trapped s.resolveDest_ne_trap_noFault, rfl⟩
  | outTransfer m1 v => exact absurd ((s.outputTransfer_status v).symm.trans after) before
  | outFaults m1 c v trapped =>
    exact ⟨c, v, Resolved.trap_code_ne_noFault trapped (s.resolveSource_ne_trap_noFault m1), rfl⟩
  | halts => cases after
  | divRaises | jgeRaises | invalidRaises => exact ⟨_, _, by decide, rfl⟩

/-- By the invariant HALT_KIND is 0 while the core runs (10_state.md R16). -/
theorem State.Inv.haltKind_eq_false {s : State} (inv : s.Inv) (running : s.status = .running) :
    s.haltKind = false := by
  refine Bool.eq_false_iff.mpr fun boundary => ?_
  have halted := inv.haltKindHalted boundary
  rw [running] at halted
  cases halted

/-- Settles O32: an instruction that ends Faulted took a fault entry, which keeps HALT_KIND. -/
theorem faultEntryChangesNothingElse : Obligations.FaultEntryChangesNothingElse := by
  refine ⟨fun _ _ _ => rfl, fun i s t before executed after => ?_⟩
  obtain ⟨c, v, coded, rfl⟩ := exec_faulted_eq_takeFault before executed after
  exact ⟨coded, rfl, fun inv running => inv.haltKind_eq_false running⟩

end Sys2Proof.Machine
end

section
/-! The round trips of the encoding (30_encoding.md R45 to R52, R62, R63): canonical words, decimal
fields, the digits that no operand consults, and assembled instructions. -/

namespace Sys2Proof

theorem decodeFields_encode {i : Instr} (wf : i.wf = true) :
    decodeFields (encode i) =
      { opc := i.opcode, m1 := i.modeDigits.1, m2 := i.modeDigits.2, m3 := 0 } := by
  cases i with
  | add m1 m2 => exact Laws.OpcodeRead.add m1 m2 wf
  | mul m1 m2 => exact Laws.OpcodeRead.mul m1 m2 wf
  | inp => exact Laws.OpcodeRead.inp wf
  | out m1 => exact Laws.OpcodeRead.out m1 wf
  | halt => exact Laws.OpcodeRead.halt wf
  | div => exact Laws.OpcodeRead.div wf
  | jge => exact Laws.OpcodeRead.jge wf
  | invalid opc => exact Laws.OpcodeRead.invalid opc wf

/-- An instruction's own opcode and mode digits select it (30_encoding.md R47). -/
theorem Fields.instr_of_opcode_modeDigits {i : Instr} (wf : i.wf = true) (m3 : Nat) :
    Fields.instr { opc := i.opcode, m1 := i.modeDigits.1, m2 := i.modeDigits.2, m3 := m3 } = i := by
  cases i with
  | add m1 m2 | mul m1 m2 =>
    simp only [Instr.wf, Bool.and_eq_true] at wf
    simp [Fields.instr, Instr.opcode, Instr.modeDigits, Mode.ofDigit_digit wf.1,
      Mode.ofDigit_digit wf.2]
  | out m1 => simp [Fields.instr, Instr.opcode, Instr.modeDigits, Mode.ofDigit_digit wf]
  | inp | halt | div | jge => rfl
  | invalid opc =>
    simp only [Instr.wf, namedOpcodes, Bool.and_eq_true] at wf
    obtain ⟨-, unnamed⟩ := wf
    simp_all [Fields.instr, Instr.opcode]

theorem decode_encode {i : Instr} (wf : i.wf = true) : decode (encode i) = i := by
  rw [decode, decodeFields_encode wf, Fields.instr_of_opcode_modeDigits wf]

/-- Settles O6: the canonical word holds the opcode and mode digits, and they select the
instruction. -/
theorem decodeEncodeRoundTrip : Obligations.DecodeEncodeRoundTrip :=
  fun _ wf => decode_encode wf

/-- Settles O7: what a word decodes to is well-formed, so its canonical word reads back. -/
theorem decodeIsWellFormedAndCanonical : Obligations.DecodeIsWellFormedAndCanonical :=
  fun w => ⟨decode_wf w, decode_encode (decode_wf w)⟩

/-- Settles O2: both directions are division with remainder by the powers of ten. -/
theorem decimalFieldsOfWord : Obligations.DecimalFieldsOfWord := by
  intro w nonneg
  rw [decodeFields_of_nonneg nonneg]
  refine ⟨⟨w.toInt / 100000, ?_⟩, fun H opc m1 m2 m3 _ _ _ _ _ _ decimal => ?_⟩
  · dsimp only
    omega
  · rw [Fields.mk.injEq]
    omega

/-- A digit of an operand that the opcode does not read selects nothing (30_encoding.md R51, R52).
-/
theorem Fields.instr_congr_of_consulted {f g : Fields} (opcs : f.opc = g.opc)
    (firsts : f.opc ∈ ([1, 2, 4] : List Int) → f.m1 = g.m1)
    (seconds : f.opc ∈ ([1, 2] : List Int) → f.m2 = g.m2) : f.instr = g.instr := by
  by_cases alu : f.opc ∈ ([1, 2] : List Int)
  · have reads : f.opc ∈ ([1, 2, 4] : List Int) := by
      simp only [List.mem_cons, List.not_mem_nil, or_false] at alu ⊢
      omega
    exact Fields.instr_congr opcs (firsts reads) (seconds alu)
  · by_cases out : f.opc = 4
    · have first := firsts (by simp [out])
      simp [Fields.instr, ← opcs, out, first]
    · simp only [List.mem_cons, List.not_mem_nil, or_false, not_or] at alu
      simp [Fields.instr, ← opcs, alu, out]

/-- Settles O5: only the digits of read operands select an instruction. -/
theorem ignoredDigitsDoNotMatter : Obligations.IgnoredDigitsDoNotMatter :=
  fun _ _ _ _ opcs firsts seconds => Fields.instr_congr_of_consulted opcs firsts seconds

/-- Settles O1: the decoder computes on written words. -/
theorem decodeReadsWrittenWords : Obligations.DecodeReadsWrittenWords := by
  unfold Obligations.DecodeReadsWrittenWords
  decide

namespace Machine

@[simp] theorem Source.wf_mode (src : Source) : src.mode.wf = true := by
  cases src <;> rfl

@[simp] theorem Source.ofMode_mode_word (src : Source) :
    Source.ofMode src.mode src.word = some src := by
  cases src <;> rfl

@[simp] theorem disassembleF3_operands (mk : Source → Source → Word → Asm) (s1 s2 : Source)
    (d : Word)
    (rest : List Word) :
    disassembleF3 mk s1.mode s2.mode (s1.word :: s2.word :: d :: rest) =
      some (mk s1 s2 d, rest) := by
  simp [disassembleF3]

/-- Settles O8: the canonical word reads back, and its modes read the operand words back. -/
theorem assemblyRoundTrip : Obligations.AssemblyRoundTrip := by
  intro a rest instruction
  cases a with
  | add s1 s2 d =>
    have word : decode (encode (.add s1.mode s2.mode)) = .add s1.mode s2.mode :=
      decode_encode (by simp [Instr.wf])
    simp [Asm.cells, disassemble, word]
  | mul s1 s2 d =>
    have word : decode (encode (.mul s1.mode s2.mode)) = .mul s1.mode s2.mode :=
      decode_encode (by simp [Instr.wf])
    simp [Asm.cells, disassemble, word]
  | inp d =>
    have word : decode (encode .inp) = .inp := decode_encode rfl
    simp [Asm.cells, disassemble, word]
  | out s1 =>
    have word : decode (encode (.out s1.mode)) = .out s1.mode := decode_encode (by simp [Instr.wf])
    simp [Asm.cells, disassemble, word]
  | halt =>
    have word : decode (encode .halt) = .halt := decode_encode rfl
    simp [Asm.cells, disassemble, word]
  | data v => cases instruction

end Machine

end Sys2Proof
end

section
/-! Canonical memories (log 1): the cells determine the data. -/

namespace Sys2Proof.Machine

theorem Memory.read_cons_same (a : Nat) (v : Word) (m : Memory) :
    Memory.read ((a, v) :: m) a = some v := by
  simp [Memory.read]

theorem Memory.read_cons_other {a b : Nat} (h : a ≠ b) (v : Word) (m : Memory) :
    Memory.read ((b, v) :: m) a = m.read a := by
  simp [Memory.read, h]

theorem Memory.risingFrom_cons {lo b : Nat} {v : Word} {m : Memory} :
    Memory.risingFrom lo ((b, v) :: m) = true ↔ lo ≤ b ∧ m.risingFrom (b + 1) = true := by
  simp [Memory.risingFrom]

/-- The first index of a rising memory is the first cell that has a value. -/
theorem Memory.head_le_of_read_eq {b c : Nat} {u v : Word} {m m' : Memory}
    (rising : m'.risingFrom (c + 1) = true)
    (reads : ∀ a, Memory.read ((b, u) :: m) a = Memory.read ((c, v) :: m') a) : c ≤ b := by
  by_contra below
  have unlisted : Memory.read ((c, v) :: m') b = none :=
    Memory.read_none_of_lt (Memory.risingFrom_cons.mpr ⟨le_refl c, rising⟩) (by omega)
  rw [← reads b, Memory.read_cons_same] at unlisted
  cases unlisted

theorem Memory.eq_of_read_eq {lo lo' : Nat} {m m' : Memory} (rising : m.risingFrom lo = true)
    (rising' : m'.risingFrom lo' = true) (reads : ∀ a, m.read a = m'.read a) : m = m' := by
  induction m generalizing lo lo' m' with
  | nil =>
    match m' with
    | [] => rfl
    | (c, v) :: _ =>
      have head := reads c
      rw [Memory.read_nil, Memory.read_cons_same] at head
      cases head
  | cons cell m ih =>
    obtain ⟨b, u⟩ := cell
    match m' with
    | [] =>
      have head := reads b
      rw [Memory.read_nil, Memory.read_cons_same] at head
      cases head
    | (c, v) :: m' =>
      obtain ⟨-, above⟩ := Memory.risingFrom_cons.mp rising
      obtain ⟨-, above'⟩ := Memory.risingFrom_cons.mp rising'
      obtain rfl : b = c :=
        le_antisymm (Memory.head_le_of_read_eq above fun a => (reads a).symm)
          (Memory.head_le_of_read_eq above' reads)
      have head := reads b
      rw [Memory.read_cons_same, Memory.read_cons_same] at head
      cases head
      refine congrArg _ (ih above above' fun a => ?_)
      by_cases same : a = b
      · subst same
        rw [Memory.read_none_of_lt above (by omega), Memory.read_none_of_lt above' (by omega)]
      · simpa only [Memory.read_cons_other same] using reads a

/-- Settles O9: the head of a canonical memory is its first cell with a value, and so on down. -/
theorem equalReadsEqualMemories : Obligations.EqualReadsEqualMemories :=
  fun _ _ canonical canonical' reads => Memory.eq_of_read_eq canonical canonical' reads

end Sys2Proof.Machine
end

section
/-! Operand resolution (30_encoding.md R54 to R58): the statements' operands are the resolution
unit's values, the three resolutions are the loop of R58, and what a defect of an operand is
reported as. -/

namespace Sys2Proof.Machine

section

variable {s : State} {k : Nat} {m : Mode} {v : Word}

theorem State.sourceValue_iff : s.SourceValue k m v ↔ s.readOperand k m = .ok v := by
  simp only [State.SourceValue, State.readOperand_eq_ok, State.operandWord_eq_ok, and_assoc]
  refine exists_congr fun raw => and_congr_right fun _ => and_congr_right fun _ => ?_
  cases m with
  | position =>
    simp only [State.dereference_eq_ok, State.valid_iff_toInt, and_assoc, true_and, false_and,
      or_false, reduceCtorEq]
    refine and_congr_right fun nonneg => ?_
    rw [toNat_toInt_of_nonneg nonneg]
  | immediate => simp [eq_comm]
  | undefined d => simp

theorem State.destination_iff {d : Nat} : s.Destination k d ↔ s.writeOperand k = .ok d := by
  simp only [State.Destination, State.writeOperand_eq_ok, State.operandWord_eq_ok,
    State.valid_iff_toInt, and_assoc]
  refine exists_congr fun raw => and_congr_right fun _ => and_congr_right fun _ =>
    and_congr_right fun nonneg => ?_
  rw [toNat_toInt_of_nonneg nonneg]

theorem State.operandWord_of_pastEnd (pastEnd : s.msize.toNat ≤ s.ip.toNat + k) :
    s.operandWord k = .trap .badAddress (BitVec.ofNat 64 (s.ip.toNat + k)) :=
  State.operandWord_eq_trap.mpr ⟨pastEnd, rfl, rfl⟩

theorem State.readOperand_of_pastEnd (pastEnd : s.msize.toNat ≤ s.ip.toNat + k) (m : Mode) :
    s.readOperand k m = .trap .badAddress (BitVec.ofNat 64 (s.ip.toNat + k)) := by
  rw [State.readOperand, State.operandWord_of_pastEnd pastEnd, Resolved.bind_trap]

theorem State.writeOperand_of_pastEnd (pastEnd : s.msize.toNat ≤ s.ip.toNat + k) :
    s.writeOperand k = .trap .badAddress (BitVec.ofNat 64 (s.ip.toNat + k)) := by
  rw [State.writeOperand, State.operandWord_of_pastEnd pastEnd, Resolved.bind_trap]

theorem State.readOperand_position_of_invalid {raw : Word} (fetched : s.operandWord k = .ok raw)
    (invalid : s.valid raw = false) : s.readOperand k .position = .trap .badAddress raw := by
  rw [State.readOperand_position fetched]
  exact State.dereference_eq_trap.mpr ⟨invalid, rfl, rfl⟩

theorem State.writeOperand_of_invalid {raw : Word} (fetched : s.operandWord k = .ok raw)
    (invalid : s.valid raw = false) : s.writeOperand k = .trap .badAddress raw :=
  State.writeOperand_eq_trap.mpr (.inr ⟨fetched, invalid, rfl⟩)

end

/-- Settles O11: an operand word is fetched from a cell below N, or its address is reported. -/
theorem operandWordPastEndIsBadAddress : Obligations.OperandWordPastEndIsBadAddress := by
  intro s k
  refine ⟨State.operandWord_of_pastEnd, fun inside v stored =>
    State.operandWord_eq_ok.mpr ⟨inside, stored⟩, fun legal inside _ upper _ => ?_⟩
  obtain ⟨-, bound⟩ := s.sizeLegal_iff.mp legal
  rw [BitVec.toNat_ofNat]
  omega

/-! ### The loop of R58 -/

@[simp] theorem Resolved.bind_assoc {α β γ : Type} (r : Resolved α) (f : α → Resolved β)
    (g : β → Resolved γ) : (r.bind f).bind g = r.bind fun a => (f a).bind g := by
  cases r <;> rfl

/-- Settles O16: unrolled over the slots of an opcode, the loop is its resolution. -/
theorem resolutionFollowsTheLoop : Obligations.ResolutionFollowsTheLoop := by
  refine fun s => ⟨fun m1 m2 => ?_, fun m1 m2 => ?_, ?_, fun m1 => ?_, rfl⟩
  · simp [State.resolveOperands, Instr.slots, modePass, State.resolutionPass, State.resolveBinary]
  · simp [State.resolveOperands, Instr.slots, modePass, State.resolutionPass, State.resolveBinary]
  · simp [State.resolveOperands, Instr.slots, modePass, State.resolutionPass, State.resolveDest]
  · simp [State.resolveOperands, Instr.slots, modePass, State.resolutionPass, State.resolveSource]

/-! ### The order of the defects of an ADD or MUL (60_exceptions.md R95) -/

/-- ADD and MUL are one instruction form with two ALU operations (41_arithmetic.md R76, R77). -/
theorem exec_eq_aluInstr {i : Instr} {m1 m2 : Mode} (form : i = .add m1 m2 ∨ i = .mul m1 m2) :
    ∃ op, ∀ s : State, exec i s = s.aluInstr op m1 m2 := by
  obtain rfl | rfl := form
  · exact ⟨aluAdd, exec_add m1 m2⟩
  · exact ⟨aluMul, exec_mul m1 m2⟩

section

variable {s : State} {m1 m2 : Mode} {v1 v2 : Word} {c : FaultCode} {v : Word}
  (op : Word → Word → Word)

theorem State.aluInstr_of_ok {d : Nat} (first : s.SourceValue 1 m1 v1)
    (second : s.SourceValue 2 m2 v2)
    (dest : s.Destination 3 d) :
    s.aluInstr op m1 m2 = .next ((s.store d (op v1 v2)).advance 4) := by
  have resolved := State.resolveBinary_eq_ok.mpr
    ⟨State.sourceValue_iff.mp first, State.sourceValue_iff.mp second, State.destination_iff.mp dest⟩
  rw [State.aluInstr, resolved, Resolved.run_ok]

section

variable (defined1 : checkMode m1 = .ok ()) (defined2 : checkMode m2 = .ok ())

include defined1 defined2

theorem State.aluInstr_of_first_trap (trapped : s.readOperand 1 m1 = .trap c v) :
    s.aluInstr op m1 m2 = .next (s.takeFault c v) := by
  simp [State.aluInstr, State.resolveBinary, defined1, defined2, trapped]

theorem State.aluInstr_of_second_trap (first : s.SourceValue 1 m1 v1)
    (trapped : s.readOperand 2 m2 = .trap c v) :
    s.aluInstr op m1 m2 = .next (s.takeFault c v) := by
  simp [State.aluInstr, State.resolveBinary, defined1, defined2, State.sourceValue_iff.mp first,
    trapped]

theorem State.aluInstr_of_dest_trap (first : s.SourceValue 1 m1 v1) (second : s.SourceValue 2 m2 v2)
    (trapped : s.writeOperand 3 = .trap c v) :
    s.aluInstr op m1 m2 = .next (s.takeFault c v) := by
  simp [State.aluInstr, State.resolveBinary, defined1, defined2, State.sourceValue_iff.mp first,
    State.sourceValue_iff.mp second, trapped]

end

end

/-- Settles O17: the mode pass, then the operands in ascending order, each bound before value. -/
theorem firstDefectIsReported : Obligations.FirstDefectIsReported := by
  intro s i m1 m2 form
  obtain ⟨op, executed⟩ := exec_eq_aluInstr form
  rw [executed]
  refine ⟨?_, ?_, fun legal1 legal2 => ?_⟩
  · rintro d rfl
    exact State.aluInstr_of_checkMode_first_trap rfl s op m2
  · rintro d legal1 rfl
    exact State.aluInstr_of_checkMode_second_trap (checkMode_eq_ok.mpr legal1) rfl s op
  · have defined1 : checkMode m1 = .ok () := checkMode_eq_ok.mpr legal1
    have defined2 : checkMode m2 = .ok () := checkMode_eq_ok.mpr legal2
    refine ⟨fun pastEnd => ?_, ?_, fun v first pastEnd => ?_, ?_,
      fun v v' first second pastEnd => ?_, fun v v' p first second fetched invalid => ?_⟩
    · exact State.aluInstr_of_first_trap op defined1 defined2
        (State.readOperand_of_pastEnd pastEnd m1)
    · rintro p fetched rfl invalid
      exact State.aluInstr_of_first_trap op defined1 defined2
        (State.readOperand_position_of_invalid fetched invalid)
    · exact State.aluInstr_of_second_trap op defined1 defined2 first
        (State.readOperand_of_pastEnd pastEnd m2)
    · rintro v p first fetched rfl invalid
      exact State.aluInstr_of_second_trap op defined1 defined2 first
        (State.readOperand_position_of_invalid fetched invalid)
    · exact State.aluInstr_of_dest_trap op defined1 defined2 first second
        (State.writeOperand_of_pastEnd pastEnd)
    · exact State.aluInstr_of_dest_trap op defined1 defined2 first second
        (State.writeOperand_of_invalid fetched invalid)

end Sys2Proof.Machine
end

section
/-! ADD and MUL (41_arithmetic.md): the ALU is the ring of 64-bit words, and an ADD or MUL whose
operands resolve stores its result. -/

namespace Sys2Proof.Machine

theorem aluAdd_eq_add (a b : Word) : aluAdd a b = a + b := by
  simp only [aluAdd, wrap64, BitVec.ofInt_add, BitVec.ofInt_toInt]

theorem aluMul_eq_mul (a b : Word) : aluMul a b = a * b := by
  simp only [aluMul, wrap64, BitVec.ofInt_mul, BitVec.ofInt_toInt]

theorem wrap64_toInt_modEq (x : Int) : (wrap64 x).toInt ≡ x [ZMOD 2 ^ 64] := by
  rw [wrap64, BitVec.toInt_ofInt]
  exact Int.bmod_emod

/-- Settles O18: `wrap64` is exact on Int64 and congruent everywhere, and the rest are the laws of
64-bit addition and multiplication. -/
theorem aluWrapsModulo : Obligations.AluWrapsModulo := by
  intro a b c
  refine ⟨wrap64_toInt, wrap64_toInt, wrap64_toInt_modEq _, wrap64_toInt_modEq _, ?_⟩
  simp only [aluAdd_eq_add, aluMul_eq_mul]
  exact ⟨BitVec.toNat_add a b, BitVec.toNat_mul a b, BitVec.add_comm a b, BitVec.mul_comm a b,
    BitVec.add_assoc a b c, BitVec.mul_assoc a b c, BitVec.mul_add⟩

/-- Settles O19: ADD is its instruction form with `aluAdd`. -/
theorem addWritesWrappedSum : Obligations.AddWritesWrappedSum :=
  fun _ _ _ _ _ _ first second dest => State.aluInstr_of_ok aluAdd first second dest

/-- Settles O20: MUL is its instruction form with `aluMul`. -/
theorem mulWritesWrappedProduct : Obligations.MulWritesWrappedProduct :=
  fun _ _ _ _ _ _ first second dest => State.aluInstr_of_ok aluMul first second dest

/-! ### An operand word replaced by an immediate (41_arithmetic.md R79) -/

theorem State.SourceValue.store_word {s : State} {k : Nat} {m : Mode} {v : Word}
    (source : s.SourceValue k m v) :
    (s.store (s.ip.toNat + k) v).SourceValue k .immediate v := by
  obtain ⟨_, inside, -⟩ := source
  exact ⟨v, inside, Memory.read_write_same s.mem _ v, rfl⟩

theorem State.Destination.store_other_word {s : State} {k d j : Nat} (dest : s.Destination k d)
    (other : k ≠ j) (v : Word) : (s.store (s.ip.toNat + j) v).Destination k d := by
  obtain ⟨p, inside, stored, address⟩ := dest
  refine ⟨p, inside, ?_, address⟩
  rw [State.store_mem, State.store_ip, Memory.read_write_other _ _ (by omega), stored]

theorem agreeAt_aluInstr {s s' : State} {m1 m2 m1' m2' : Mode} {v1 v2 : Word} {d : Nat}
    (op : Word → Word → Word) (ips : s.ip = s'.ip)
    (first : s.SourceValue 1 m1 v1) (second : s.SourceValue 2 m2 v2) (dest : s.Destination 3 d)
    (first' : s'.SourceValue 1 m1' v1) (second' : s'.SourceValue 2 m2' v2)
    (dest' : s'.Destination 3 d) :
    agreeAt d (op v1 v2) (s.aluInstr op m1 m2) (s'.aluInstr op m1' m2') :=
  ⟨_, _, State.aluInstr_of_ok op first second dest, State.aluInstr_of_ok op first' second' dest',
    Memory.read_write_same s.mem d _, Memory.read_write_same s'.mem d _, by simp [ips]⟩

/-- Settles O40: both executions resolve to the same two values and the same destination. -/
theorem positionAndImmediateAgree : Obligations.PositionAndImmediateAgree := by
  intro s m v1 v2 d dest
  refine ⟨?_, ?_⟩
  · rintro first second s' rfl second'
    have dest' := dest.store_other_word (j := 1) (by decide) v1
    exact ⟨agreeAt_aluInstr aluAdd rfl first second dest first.store_word second' dest',
      agreeAt_aluInstr aluMul rfl first second dest first.store_word second' dest'⟩
  · rintro first second s' rfl first'
    have dest' := dest.store_other_word (j := 2) (by decide) v2
    exact ⟨agreeAt_aluInstr aluAdd rfl first second dest first' second.store_word dest',
      agreeAt_aluInstr aluMul rfl first second dest first' second.store_word dest'⟩

end Sys2Proof.Machine
end

section
/-! IN and OUT (42_io.md): a resolved operand reaches the transfer, which sets WAIT, waits on or
completes, and a defect faults whatever WAIT holds. -/

namespace Sys2Proof.Machine

section

variable {s : State} {d : Nat} {m1 : Mode} {v : Word}

theorem exec_inp_of_destination (dest : s.Destination 1 d) :
    exec .inp s = .next (s.inputTransfer d) := by
  rw [exec_inp, State.resolveDest, State.destination_iff.mp dest, Resolved.run_ok]

theorem exec_out_of_sourceValue (source : s.SourceValue 1 m1 v) :
    exec (.out m1) s = .next (s.outputTransfer v) := by
  rw [exec_out, State.resolveSource_eq_ok.mpr (State.sourceValue_iff.mp source), Resolved.run_ok]

theorem exec_out_of_readOperand_trap {c : FaultCode} (defined : checkMode m1 = .ok ())
    (trapped : s.readOperand 1 m1 = .trap c v) : exec (.out m1) s = .next (s.takeFault c v) := by
  simp [State.resolveSource, defined, trapped]

theorem State.inputTransfer_of_not_waiting (idle : s.wait ≠ .input) :
    s.inputTransfer d = { s with wait := .input } := by
  rw [State.inputTransfer, if_neg idle]

theorem State.inputTransfer_of_no_offer (waiting : s.wait = .input)
    (offer : s.pins.inValid = false) :
    s.inputTransfer d = s := by
  simp [State.inputTransfer, waiting, offer]

theorem State.inputTransfer_of_offer (waiting : s.wait = .input) (offer : s.pins.inValid = true) :
    s.inputTransfer d =
      ({ s with wait := .idle, inputsTaken := s.inputsTaken ++ [s.pins.inData] }.store d
        s.pins.inData).advance 2 := by
  simp [State.inputTransfer, waiting, offer]

theorem State.outputTransfer_of_not_waiting (idle : s.wait ≠ .output) :
    s.outputTransfer v = { s with wait := .output } := by
  rw [State.outputTransfer, if_neg idle]

theorem State.outputTransfer_of_not_ready (waiting : s.wait = .output)
    (notReady : s.pins.outReady = false) : s.outputTransfer v = s := by
  simp [State.outputTransfer, waiting, notReady]

theorem State.outputTransfer_of_ready (waiting : s.wait = .output)
    (acceptance : s.pins.outReady = true) :
    s.outputTransfer v = { s with wait := .idle, outputs := s.outputs ++ [v] }.advance 2 := by
  simp [State.outputTransfer, waiting, acceptance]

end

/-- Settles O21: the transfer of a waiting IN under an offer. -/
theorem inTakesOfferedValue : Obligations.InTakesOfferedValue := by
  intro s d dest waiting offer
  rw [exec_inp_of_destination dest, State.inputTransfer_of_offer waiting offer]
  rfl

/-- Settles O22: the destination is checked first; a good one begins the wait or waits on. -/
theorem inWaitsForAnOffer : Obligations.InWaitsForAnOffer := by
  refine fun s => ⟨fun d dest idle => ?_, fun d dest waiting offer => ?_, fun pastEnd => ?_,
    fun p fetched invalid => ?_⟩
  · rw [exec_inp_of_destination dest, State.inputTransfer_of_not_waiting idle]
  · rw [exec_inp_of_destination dest, State.inputTransfer_of_no_offer waiting offer]
  · exact exec_inp_of_writeOperand_trap (State.writeOperand_of_pastEnd pastEnd)
  · exact exec_inp_of_writeOperand_trap (State.writeOperand_of_invalid fetched invalid)

/-- Settles O23: the transfer of a waiting OUT that the host accepts. -/
theorem outEmitsItsOperand : Obligations.OutEmitsItsOperand := by
  intro s m1 v source waiting acceptance
  rw [exec_out_of_sourceValue source, State.outputTransfer_of_ready waiting acceptance]
  rfl

/-- Settles O24: mode, bound and address are checked in turn; a value begins the wait or waits on.
-/
theorem outWaitsForAcceptance : Obligations.OutWaitsForAcceptance := by
  refine fun s m1 => ⟨fun v source idle => ?_, fun v source waiting notReady => ?_, ?_,
    fun legal pastEnd => ?_, ?_⟩
  · rw [exec_out_of_sourceValue source, State.outputTransfer_of_not_waiting idle]
  · rw [exec_out_of_sourceValue source, State.outputTransfer_of_not_ready waiting notReady]
  · rintro d rfl
    exact exec_out_of_checkMode_trap rfl s
  · exact exec_out_of_readOperand_trap (checkMode_eq_ok.mpr legal)
      (State.readOperand_of_pastEnd pastEnd m1)
  · rintro p rfl fetched invalid
    exact exec_out_of_readOperand_trap rfl (State.readOperand_position_of_invalid fetched invalid)

end Sys2Proof.Machine
end

section
/-! Frames: what the two transfers, a fault entry and each instruction leave unchanged
(41_arithmetic.md R76, R77; 42_io.md R81, R84; 60_exceptions.md R93). -/

namespace Sys2Proof.Machine

/-! ### The transfers of IN and OUT -/

section

variable (s : State) (d : Nat) (v : Word)

@[simp] theorem State.inputTransfer_msize : (s.inputTransfer d).msize = s.msize := by
  obtain ⟨-, eq⟩ | ⟨-, -, eq⟩ | ⟨-, -, eq⟩ := s.inputTransfer_cases d <;> simp [eq]

@[simp] theorem State.inputTransfer_outputs : (s.inputTransfer d).outputs = s.outputs := by
  obtain ⟨-, eq⟩ | ⟨-, -, eq⟩ | ⟨-, -, eq⟩ := s.inputTransfer_cases d <;> simp [eq]

@[simp] theorem State.inputTransfer_inReset : (s.inputTransfer d).inReset = s.inReset := by
  obtain ⟨-, eq⟩ | ⟨-, -, eq⟩ | ⟨-, -, eq⟩ := s.inputTransfer_cases d <;> simp [eq]

@[simp] theorem State.inputTransfer_host : (s.inputTransfer d).host = s.host := by
  obtain ⟨-, eq⟩ | ⟨-, -, eq⟩ | ⟨-, -, eq⟩ := s.inputTransfer_cases d <;> simp [eq]

theorem State.inputTransfer_sameStatusRegs : s.sameStatusRegs (s.inputTransfer d) := by
  obtain ⟨-, eq⟩ | ⟨-, -, eq⟩ | ⟨-, -, eq⟩ := s.inputTransfer_cases d <;>
    simp [eq, State.sameStatusRegs]

theorem State.inputTransfer_read_other {a : Nat} (other : a ≠ d) :
    (s.inputTransfer d).mem.read a = s.mem.read a := by
  obtain ⟨-, eq⟩ | ⟨-, -, eq⟩ | ⟨-, -, eq⟩ := s.inputTransfer_cases d <;> simp [eq, other]

/-- A transfer of IN that does not complete leaves the core waiting, and nothing else (42_io.md
R82). -/
theorem State.inputTransfer_of_wait_ne_idle (waits : (s.inputTransfer d).wait ≠ .idle) :
    s.inputTransfer d = { s with wait := .input } := by
  obtain ⟨-, eq⟩ | ⟨waiting, -, eq⟩ | ⟨-, -, eq⟩ := s.inputTransfer_cases d
  · exact eq
  · rw [eq, ← waiting]
  · exact absurd (by simp [eq]) waits

@[simp] theorem State.outputTransfer_mem : (s.outputTransfer v).mem = s.mem := by
  obtain ⟨-, eq⟩ | ⟨-, -, eq⟩ | ⟨-, -, eq⟩ := s.outputTransfer_cases v <;> simp [eq]

@[simp] theorem State.outputTransfer_msize : (s.outputTransfer v).msize = s.msize := by
  obtain ⟨-, eq⟩ | ⟨-, -, eq⟩ | ⟨-, -, eq⟩ := s.outputTransfer_cases v <;> simp [eq]

@[simp] theorem State.outputTransfer_inputsTaken :
    (s.outputTransfer v).inputsTaken = s.inputsTaken := by
  obtain ⟨-, eq⟩ | ⟨-, -, eq⟩ | ⟨-, -, eq⟩ := s.outputTransfer_cases v <;> simp [eq]

@[simp] theorem State.outputTransfer_inReset : (s.outputTransfer v).inReset = s.inReset := by
  obtain ⟨-, eq⟩ | ⟨-, -, eq⟩ | ⟨-, -, eq⟩ := s.outputTransfer_cases v <;> simp [eq]

@[simp] theorem State.outputTransfer_host : (s.outputTransfer v).host = s.host := by
  obtain ⟨-, eq⟩ | ⟨-, -, eq⟩ | ⟨-, -, eq⟩ := s.outputTransfer_cases v <;> simp [eq]

theorem State.outputTransfer_sameStatusRegs : s.sameStatusRegs (s.outputTransfer v) := by
  obtain ⟨-, eq⟩ | ⟨-, -, eq⟩ | ⟨-, -, eq⟩ := s.outputTransfer_cases v <;>
    simp [eq, State.sameStatusRegs]

end

/-! ### Fault entry -/

section

variable {s t : State}

theorem State.enteredFault_takeFault {c : FaultCode} (coded : c ≠ .noFault) (v : Word) :
    s.enteredFault (s.takeFault c v) :=
  ⟨rfl, coded⟩

theorem State.enteredFault.mem_eq (entered : s.enteredFault t) : t.mem = s.mem := by
  rw [entered.1]

theorem State.enteredFault.inputsTaken_eq (entered : s.enteredFault t) :
    t.inputsTaken = s.inputsTaken := by
  rw [entered.1]

theorem State.enteredFault.outputs_eq (entered : s.enteredFault t) : t.outputs = s.outputs := by
  rw [entered.1]

end

/-! ### The instructions -/

/-- No instruction touches N, the model's reset flag or what the host drives. -/
theorem exec_frame {i : Instr} {s t : State} (executed : exec i s = .next t) :
    t.msize = s.msize ∧ t.inReset = s.inReset ∧ t.host = s.host := by
  cases exec_effect executed with
  | addWrites | mulWrites | addFaults | mulFaults | inFaults | outFaults | halts | divRaises
  | jgeRaises | invalidRaises => exact ⟨rfl, rfl, rfl⟩
  | inTransfer d => simp
  | outTransfer m1 v => simp

/-- Settles O29: ADD and MUL store one cell and advance, or take a fault entry. -/
theorem aluFrame : Obligations.AluFrame := by
  intro s t i m1 m2 form executed
  obtain ⟨op, alu⟩ := exec_eq_aluInstr form
  rw [alu] at executed
  obtain ⟨v1, v2, d, resolved, rfl⟩ | ⟨c, v, trapped, rfl⟩ := State.aluInstr_eq_next.mp executed
  · obtain ⟨-, -, dest⟩ := State.resolveBinary_eq_ok.mp resolved
    refine ⟨rfl, rfl, rfl, rfl, rfl, rfl, .inl ⟨⟨rfl, rfl, rfl, rfl, rfl⟩, rfl⟩, ?_,
      fun unresolved => absurd dest (unresolved d), fun entered a => by rw [entered.mem_eq]⟩
    intro d' dest' a other
    obtain rfl : d = d' := Resolved.ok.inj (dest.symm.trans dest')
    exact Memory.read_write_other s.mem _ other
  · have coded := Resolved.trap_code_ne_noFault trapped (s.resolveBinary_ne_trap_noFault m1 m2)
    exact ⟨rfl, rfl, rfl, rfl, rfl, rfl, .inr (State.enteredFault_takeFault coded v),
      fun _ _ _ _ => rfl, fun _ _ => rfl, fun _ _ => rfl⟩

/-- Settles O30: IN begins to wait, waits on, stores one cell and advances, or takes a fault entry.
-/
theorem inFrame : Obligations.InFrame := by
  intro s t executed
  obtain ⟨d, dest, rfl⟩ | ⟨c, v, trapped, rfl⟩ := execIn_eq_next.mp executed
  · have regs := s.inputTransfer_sameStatusRegs d
    refine ⟨by simp, by simp, by simp, by simp, regs.2.1, .inl regs, ?_,
      fun unresolved => absurd dest (unresolved d), s.inputTransfer_of_wait_ne_idle d,
      fun entered => ⟨entered.inputsTaken_eq, fun a => by rw [entered.mem_eq]⟩⟩
    intro d' dest' a other
    obtain rfl : d = d' := Resolved.ok.inj (dest.symm.trans dest')
    exact s.inputTransfer_read_other d other
  · have coded := Resolved.trap_code_ne_noFault trapped s.resolveDest_ne_trap_noFault
    exact ⟨rfl, rfl, rfl, rfl, rfl, .inr (State.enteredFault_takeFault coded v),
      fun _ _ _ _ => rfl, fun _ _ => rfl, fun waits => absurd rfl waits,
      fun _ => ⟨rfl, fun _ => rfl⟩⟩

/-- Settles O31: the instructions that store nothing, each by its own effect. -/
theorem nonStoringFrame : Obligations.NonStoringFrame := by
  intro s t i executed form
  cases exec_effect executed with
  | addWrites | addFaults | mulWrites | mulFaults | inTransfer | inFaults => simp at form
  | outTransfer m1 v =>
    have regs := s.outputTransfer_sameStatusRegs v
    exact ⟨by simp, by simp, by simp, by simp, by simp,
      fun _ => ⟨regs.2.1, .inl regs, State.enteredFault.outputs_eq⟩, nofun, by simp⟩
  | outFaults m1 c v trapped =>
    have coded := Resolved.trap_code_ne_noFault trapped (s.resolveSource_ne_trap_noFault m1)
    have entered : s.enteredFault (s.takeFault c v) := State.enteredFault_takeFault coded v
    exact ⟨fun _ => rfl, rfl, rfl, rfl, rfl, fun _ => ⟨rfl, .inr entered, fun _ => rfl⟩, nofun,
      fun _ => entered⟩
  | halts =>
    exact ⟨fun _ => rfl, rfl, rfl, rfl, rfl, nofun, fun _ => ⟨rfl, rfl, rfl, rfl, rfl⟩, by simp⟩
  | divRaises | jgeRaises | invalidRaises =>
    exact ⟨fun _ => rfl, rfl, rfl, rfl, rfl, by simp, nofun,
      fun _ => State.enteredFault_takeFault (by decide) _⟩

end Sys2Proof.Machine
end

section
/-! Which instruction raises which fault, and with what FAULT_VALUE (60_exceptions.md R94). -/

namespace Sys2Proof

theorem Instr.opcode_range {i : Instr} (wf : i.wf = true) : -99 ≤ i.opcode ∧ i.opcode ≤ 99 := by
  cases i with
  | invalid opc =>
    simp only [Instr.wf, Bool.and_eq_true, decide_eq_true_eq] at wf
    exact wf.1
  | _ => simp [Instr.opcode]

/-- The opcode of a well-formed instruction is shown as it is by FAULT_VALUE (10_state.md R19). -/
theorem Instr.wrap64_opcode_toInt {i : Instr} (wf : i.wf = true) :
    (wrap64 i.opcode).toInt = i.opcode := by
  have ⟨lower, upper⟩ := Instr.opcode_range wf
  exact wrap64_toInt (by omega) (by omega)

namespace Machine

/-- The report of an operand with mode `m`, where a mode digit is one decimal digit (R94). -/
theorem TrapReport.of_wf {s : State} {m : Mode} {c : FaultCode} {v : Word}
    (report : TrapReport s m c v) (wf : m.wf = true) :
    (c = .badAddress ∧ s.valid v = false) ∨
      (c = .invalidMode ∧ 2 ≤ v.toNat ∧ v.toNat ≤ 9 ∧ m = .undefined v.toNat) := by
  obtain address | ⟨d, rfl, rfl, rfl⟩ := report
  · exact .inl address
  · simp only [Mode.wf, decide_eq_true_eq] at wf
    have digit : (BitVec.ofNat 64 d).toNat = d := by
      rw [BitVec.toNat_ofNat]
      omega
    rw [digit]
    exact .inr ⟨rfl, wf.1, wf.2, rfl⟩

section

variable {s t : State} (legal : s.sizeLegal = true) (inside : s.ip.toNat < s.msize.toNat)

include legal inside

/-- No operand address of an instruction inside memory leaves the 64-bit space (30_encoding.md R54).
-/
theorem State.operand_addresses_fit : s.ip.toNat + 3 < 2 ^ 64 := by
  obtain ⟨-, bound⟩ := s.sizeLegal_iff.mp legal
  omega

theorem State.resolveBinary_report {m1 m2 : Mode} {c : FaultCode} {v : Word} (wf1 : m1.wf = true)
    (wf2 : m2.wf = true) (trapped : s.resolveBinary m1 m2 = .trap c v) :
    (c = .badAddress ∧ s.valid v = false) ∨
      (c = .invalidMode ∧ 2 ≤ v.toNat ∧ v.toNat ≤ 9 ∧
        (m1 = .undefined v.toNat ∨ m2 = .undefined v.toNat)) := by
  have fit := State.operand_addresses_fit legal inside
  obtain report | report := State.resolveBinary_trap fit trapped
  · exact (report.of_wf wf1).imp_right fun ⟨code, lo, hi, mode⟩ => ⟨code, lo, hi, .inl mode⟩
  · exact (report.of_wf wf2).imp_right fun ⟨code, lo, hi, mode⟩ => ⟨code, lo, hi, .inr mode⟩

theorem State.resolveSource_report {m1 : Mode} {c : FaultCode} {v : Word} (wf1 : m1.wf = true)
    (trapped : s.resolveSource m1 = .trap c v) :
    (c = .badAddress ∧ s.valid v = false) ∨
      (c = .invalidMode ∧ 2 ≤ v.toNat ∧ v.toNat ≤ 9 ∧ m1 = .undefined v.toNat) :=
  (State.resolveSource_trap (State.operand_addresses_fit legal inside) trapped).of_wf wf1

theorem State.resolveDest_report {c : FaultCode} {v : Word} (trapped : s.resolveDest = .trap c v) :
    c = .badAddress ∧ s.valid v = false := by
  have fit := State.operand_addresses_fit legal inside
  exact State.writeOperand_trap (by omega) trapped

end

/-- Settles O33: each fault entry by the resolution or the opcode that raises it. -/
theorem eachInstructionRaisesItsFaults : Obligations.EachInstructionRaisesItsFaults := by
  intro i s t before legal inside wf executed after
  cases exec_effect executed with
  | addWrites | mulWrites => exact absurd after before
  | inTransfer d => exact absurd ((s.inputTransfer_status d).symm.trans after) before
  | outTransfer m1 v => exact absurd ((s.outputTransfer_status v).symm.trans after) before
  | addFaults m1 m2 c v trapped | mulFaults m1 m2 c v trapped =>
    simp only [Instr.wf, Bool.and_eq_true] at wf
    refine ⟨?_, nofun, nofun, nofun, nofun⟩
    rintro _ _ (same | same) <;> cases same
    exact State.resolveBinary_report legal inside wf.1 wf.2 trapped
  | inFaults c v trapped =>
    exact ⟨by simp, fun _ => State.resolveDest_report legal inside trapped, nofun, nofun, nofun⟩
  | outFaults m1 c v trapped =>
    refine ⟨by simp, nofun, ?_, nofun, nofun⟩
    rintro _ ⟨⟩
    exact State.resolveSource_report legal inside wf trapped
  | halts => cases after
  | divRaises | jgeRaises | invalidRaises =>
    exact ⟨by simp, nofun, nofun, nofun, fun _ => ⟨rfl, Instr.wrap64_opcode_toInt wf⟩⟩

end Machine

end Sys2Proof
end

section
/-! What an instruction can see (10_state.md R23): memory, N, `ip`, WAIT and the ports. -/

namespace Sys2Proof.Machine

/-- From `s` and `t` the same was done to memory, N, `ip`, WAIT and the streams. -/
def SameEffect (s t s' t' : State) : Prop :=
  s'.mem = t'.mem ∧ s'.msize = t'.msize ∧ s'.ip = t'.ip ∧ s'.wait = t'.wait ∧
    (∃ xs, s'.inputsTaken = s.inputsTaken ++ xs ∧ t'.inputsTaken = t.inputsTaken ++ xs) ∧
    ∃ ys, s'.outputs = s.outputs ++ ys ∧ t'.outputs = t.outputs ++ ys

/-- Executions from `s` and `t` that refuse alike, or do the same. -/
def SameOutcome (s t : State) (o o' : Host.Outcome State Fault Refusal) : Prop :=
  (∀ r, o = .refused r → o' = .refused r) ∧
    ∀ s', o = .next s' → ∃ t', o' = .next t' ∧ SameEffect s t s' t'

section

variable {s t : State}

theorem SameEffect.outcome {s' t' : State} (same : SameEffect s t s' t') :
    SameOutcome s t (.next s') (.next t') := by
  refine ⟨nofun, ?_⟩
  rintro _ ⟨⟩
  exact ⟨t', rfl, same⟩

/-- An effect that appends nothing to the streams. -/
theorem SameEffect.of_silent {s' t' : State} (mem : s'.mem = t'.mem) (size : s'.msize = t'.msize)
    (ip : s'.ip = t'.ip) (wait : s'.wait = t'.wait) (ins : s'.inputsTaken = s.inputsTaken)
    (ins' : t'.inputsTaken = t.inputsTaken) (outs : s'.outputs = s.outputs)
    (outs' : t'.outputs = t.outputs) : SameEffect s t s' t' :=
  ⟨mem, size, ip, wait, ⟨[], by simp [ins, ins']⟩, [], by simp [outs, outs']⟩

variable (view : s.sameView t)

include view

theorem State.sameView.takeFault (c : FaultCode) (v : Word) :
    SameEffect s t (s.takeFault c v) (t.takeFault c v) := by
  obtain ⟨mem, size, ip, -, -⟩ := view
  exact .of_silent mem size ip rfl rfl rfl rfl rfl

theorem State.sameView.run {α : Type} (r : Resolved α)
    {k k' : α → Host.Outcome State Fault Refusal} (same : ∀ a, SameOutcome s t (k a) (k' a)) :
    SameOutcome s t (r.run s k) (r.run t k') := by
  cases r with
  | ok a => exact same a
  | trap c v => exact (view.takeFault c v).outcome
  | refuse w => exact ⟨fun _ refused => refused, nofun⟩

theorem State.sameView.aluInstr (op : Word → Word → Word) (m1 m2 : Mode) :
    SameOutcome s t (s.aluInstr op m1 m2) (t.aluInstr op m1 m2) := by
  have ⟨mem, size, ip, wait, _⟩ := view
  rw [State.aluInstr, State.aluInstr, State.resolveBinary_congr mem size ip]
  refine view.run _ fun r => SameEffect.outcome ?_
  exact .of_silent (by simp [mem]) size (by simp [ip]) wait rfl rfl rfl rfl

theorem State.sameView.inputTransfer (d : Nat) :
    SameEffect s t (s.inputTransfer d) (t.inputTransfer d) := by
  obtain ⟨mem, size, ip, wait, pins⟩ := view
  simp only [State.inputTransfer, ← wait, ← pins]
  split
  · split
    · exact ⟨by simp [mem], size, by simp [ip], rfl, ⟨[s.pins.inData], rfl, rfl⟩, [], by simp⟩
    · exact .of_silent mem size ip wait rfl rfl rfl rfl
  · exact .of_silent mem size ip rfl rfl rfl rfl rfl

theorem State.sameView.outputTransfer (v : Word) :
    SameEffect s t (s.outputTransfer v) (t.outputTransfer v) := by
  obtain ⟨mem, size, ip, wait, pins⟩ := view
  simp only [State.outputTransfer, ← wait, ← pins]
  split
  · split
    · exact ⟨mem, size, by simp [ip], rfl, ⟨[], by simp⟩, [v], rfl, rfl⟩
    · exact .of_silent mem size ip wait rfl rfl rfl rfl
  · exact .of_silent mem size ip rfl rfl rfl rfl rfl

theorem State.sameView.exec (i : Instr) : SameOutcome s t (exec i s) (exec i t) := by
  have ⟨mem, size, ip, wait, _⟩ := view
  cases i with
  | add m1 m2 => exact view.aluInstr aluAdd m1 m2
  | mul m1 m2 => exact view.aluInstr aluMul m1 m2
  | inp =>
    rw [exec_inp, exec_inp, State.resolveDest_congr mem size ip]
    exact view.run _ fun d => (view.inputTransfer d).outcome
  | out m1 =>
    rw [exec_out, exec_out, State.resolveSource_congr mem size ip]
    exact view.run _ fun v => (view.outputTransfer v).outcome
  | halt =>
    rw [exec_halt, exec_halt]
    exact SameEffect.outcome (.of_silent mem size (by simp [ip]) wait rfl rfl rfl rfl)
  | div => exact (view.takeFault _ _).outcome
  | jge => exact (view.takeFault _ _).outcome
  | invalid opc => exact (view.takeFault _ _).outcome

end

/-- Settles O41: both states resolve the same operands, and every effect reads only the common view.
-/
theorem instructionsSeeOnlyMemoryAndPorts : Obligations.InstructionsSeeOnlyMemoryAndPorts :=
  fun i _ _ view => view.exec i

end Sys2Proof.Machine
end

section
/-! The step of a core out of reset (40_cycle_and_control.md R65, R66): the instruction at `ip`,
where the model refuses it, and what becomes of STATUS, N and `ip`. -/

namespace Sys2Proof.Machine

section

variable {s : State} {w : Word}

theorem State.runStep_of_illegal_size (illegal : s.sizeLegal = false) :
    s.runStep = .refused .sizeNotLoaded := by
  simp [State.runStep, illegal]

theorem State.runStep_of_inside (legal : s.sizeLegal = true) (inside : s.ip.toNat < s.msize.toNat) :
    s.runStep = s.fetchExec := by
  rw [State.runStep, if_pos legal, if_neg (by omega)]

theorem State.fetchExec_of_read (stored : s.mem.read s.ip.toNat = some w) :
    s.fetchExec = exec (decode w) s := by
  rw [State.fetchExec, State.cell_eq_ok.mpr stored]

theorem State.fetchExec_of_unloaded (unloaded : s.mem.read s.ip.toNat = none) :
    s.fetchExec = .refused (.unloadedCell s.ip.toNat) := by
  simp [State.fetchExec, State.cell, unloaded]

theorem step_of_inside (ready : s.ready) (inside : s.ip.toNat < s.msize.toNat) :
    step s = mapNext State.popHost s.fetchExec := by
  obtain ⟨running, released, legal, noRst⟩ := ready
  rw [step_of_out_of_reset noRst released, State.coreStep_of_running running,
    State.runStep_of_inside legal inside]

theorem step_of_instruction (ready : s.ready) (inside : s.ip.toNat < s.msize.toNat)
    (stored : s.mem.read s.ip.toNat = some w) :
    step s = mapNext State.popHost (exec (decode w) s) := by
  rw [step_of_inside ready inside, State.fetchExec_of_read stored]

/-- A completed instruction, and the host going on: what a step answers (log 5). -/
theorem step_of_exec_next {t : State} (ready : s.ready) (inside : s.ip.toNat < s.msize.toNat)
    (stored : s.mem.read s.ip.toNat = some w) (executed : exec (decode w) s = .next t) :
    step s = .next { t with host := s.host.tail } := by
  obtain ⟨-, -, host⟩ := exec_frame executed
  rw [step_of_instruction ready inside stored, executed, mapNext_next, ← host]
  rfl

theorem step_of_terminal (noRst : s.pins.rst = false) (released : s.inReset = false)
    (terminal : s.status = .halted ∨ s.status = .faulted) : step s = .next s.popHost := by
  rw [step_of_out_of_reset noRst released, State.coreStep_of_terminal terminal, mapNext_next]

end

/-- Settles O34: around the instruction a step only lets the host go on. -/
theorem stepRunsDecodedInstruction : Obligations.StepRunsDecodedInstruction := by
  rintro s w i ready inside stored rfl
  refine ⟨fun t executed => step_of_exec_next ready inside stored executed, fun r refused => ?_⟩
  rw [step_of_instruction ready inside stored, refused, mapNext_refused]

/-- Settles O38: the sequencer's three stops. -/
theorem stepsWithoutMeaningStop : Obligations.StepsWithoutMeaningStop := by
  intro s released noRst
  refine ⟨fun running illegal => ?_, fun ready inside unloaded => ?_, fun reserved => ?_⟩
  · rw [step_of_out_of_reset noRst released, State.coreStep_of_running running,
      State.runStep_of_illegal_size illegal, mapNext_refused]
  · rw [step_of_inside ready inside, State.fetchExec_of_unloaded unloaded, mapNext_refused]
  · rw [step_of_out_of_reset noRst released, State.coreStep, reserved, mapNext_fault]

/-- Settles O44: the result is cell 0 of a halted core, which holds. -/
theorem resultIsCellZeroWhenHalted : Obligations.ResultIsCellZeroWhenHalted := by
  refine fun s => ⟨by simp [State.resultValid], State.result_of_halted, fun notHalted => ?_, ?_⟩
  · simp [State.result, State.resultValid, notHalted]
  · intro t halted released noRst stepped
    rw [step_of_terminal noRst released (.inl halted)] at stepped
    cases stepped
    rfl

/-! ### STATUS -/

/-- An instruction changes STATUS by a HALT or a fault entry alone. -/
theorem exec_status {i : Instr} {s t : State} (executed : exec i s = .next t) :
    t.status = s.status ∨ (i = .halt ∧ t = (s.halt false).advance 1) ∨ t.status = .faulted := by
  cases exec_effect executed with
  | addWrites | mulWrites => exact .inl rfl
  | inTransfer d => exact .inl (s.inputTransfer_status d)
  | outTransfer m1 v => exact .inl (s.outputTransfer_status v)
  | halts => exact .inr (.inl ⟨rfl, rfl⟩)
  | addFaults | mulFaults | inFaults | outFaults | divRaises | jgeRaises | invalidRaises =>
    exact .inr (.inr rfl)

/-- Settles O37: the moves of a step, of which the boundary, a HALT, a fault entry and the release
change STATUS. -/
theorem statusChangesAreTheseOnly : Obligations.StatusChangesAreTheseOnly := by
  refine ⟨⟨rfl, rfl⟩, fun s t stepped changed => ?_⟩
  cases step_move stepped with
  | resets | holds => exact absurd rfl changed
  | releases noRst inReset => exact .inr (.inr ⟨noRst, inReset, rfl⟩)
  | ends noRst released running legal boundary =>
    exact .inl ⟨running, noRst, rfl, .inr ⟨boundary, rfl⟩⟩
  | runs noRst released running legal inside w u stored executed =>
    obtain same | ⟨halt, rfl⟩ | faulted := exec_status executed
    · exact absurd same changed
    · exact .inl ⟨running, noRst, rfl, .inl ⟨inside, rfl, w, stored, halt⟩⟩
    · obtain ⟨c, v, coded, rfl⟩ := exec_faulted_eq_takeFault (by simp [running]) executed faulted
      exact .inr (.inl ⟨running, noRst, rfl, coded, rfl⟩)

/-! ### N and `ip` -/

section

variable {s : State}



theorem State.writeOperand_inside {k d : Nat} (dest : s.writeOperand k = .ok d) :
    s.ip.toNat + k < s.msize.toNat := by
  obtain ⟨raw, fetched, -⟩ := State.writeOperand_eq_ok.mp dest
  exact (State.operandWord_eq_ok.mp fetched).1

theorem State.readOperand_inside {k : Nat} {m : Mode} {v : Word}
    (source : s.readOperand k m = .ok v) :
    s.ip.toNat + k < s.msize.toNat := by
  obtain ⟨raw, fetched, -⟩ := State.readOperand_eq_ok.mp source
  exact (State.operandWord_eq_ok.mp fetched).1

/-- A core that completes a binary instruction has all of its four cells inside memory. -/
theorem State.resolveBinary_inside {m1 m2 : Mode} {v1 v2 : Word} {d : Nat}
    (resolved : s.resolveBinary m1 m2 = .ok (v1, v2, d)) : s.ip.toNat + 3 < s.msize.toNat := by
  obtain ⟨-, -, dest⟩ := State.resolveBinary_eq_ok.mp resolved
  exact State.writeOperand_inside dest

theorem State.resolveSource_inside {m1 : Mode} {v : Word} (resolved : s.resolveSource m1 = .ok v) :
    s.ip.toNat + 1 < s.msize.toNat :=
  State.readOperand_inside (State.resolveSource_eq_ok.mp resolved)

/-- An advance inside memory does not leave the 64-bit space (40_cycle_and_control.md R67, R69). -/
theorem State.advance_ip_toNat {n : Nat} (legal : s.sizeLegal = true)
    (upper : s.ip.toNat + n ≤ s.msize.toNat) : (s.advance n).ip.toNat = s.ip.toNat + n := by
  obtain ⟨-, bound⟩ := s.sizeLegal_iff.mp legal
  rw [State.advance_ip, BitVec.toNat_add, BitVec.toNat_ofNat]
  omega

theorem State.store_advance_ip_toNat {n : Nat} (legal : s.sizeLegal = true)
    (upper : s.ip.toNat + n ≤ s.msize.toNat) (d : Nat) (v : Word) :
    ((s.store d v).advance n).ip.toNat = s.ip.toNat + n :=
  State.advance_ip_toNat legal upper

theorem State.inputTransfer_ip_toNat (legal : s.sizeLegal = true)
    (upper : s.ip.toNat + 2 ≤ s.msize.toNat) (d : Nat) :
    (s.inputTransfer d).ip.toNat =
      s.ip.toNat + if s.wait = .input ∧ s.pins.inValid = true then 2 else 0 := by
  have ip := State.advance_ip_toNat legal upper
  obtain ⟨idle, eq⟩ | ⟨waiting, offer, eq⟩ | ⟨waiting, offer, eq⟩ := s.inputTransfer_cases d
  · simp [eq, idle]
  · simp [eq, offer]
  · rw [eq, if_pos ⟨waiting, offer⟩, ← ip]
    rfl

theorem State.outputTransfer_ip_toNat (legal : s.sizeLegal = true)
    (upper : s.ip.toNat + 2 ≤ s.msize.toNat) (v : Word) :
    (s.outputTransfer v).ip.toNat =
      s.ip.toNat + if s.wait = .output ∧ s.pins.outReady = true then 2 else 0 := by
  have ip := State.advance_ip_toNat legal upper
  obtain ⟨idle, eq⟩ | ⟨waiting, notReady, eq⟩ | ⟨waiting, acceptance, eq⟩ :=
    s.outputTransfer_cases v
  · simp [eq, idle]
  · simp [eq, notReady]
  · rw [eq, if_pos ⟨waiting, acceptance⟩, ← ip]
    rfl

end

/-- An instruction at `ip < N` never lowers `ip`, and leaves it at most N (40_cycle_and_control.md
R69). -/
theorem exec_ip_bounds {i : Instr} {s t : State} (legal : s.sizeLegal = true)
    (inside : s.ip.toNat < s.msize.toNat) (executed : exec i s = .next t) :
    s.ip.toNat ≤ t.ip.toNat ∧ t.ip.toNat ≤ s.msize.toNat := by
  cases exec_effect executed with
  | addWrites m1 m2 v1 v2 d resolved | mulWrites m1 m2 v1 v2 d resolved =>
    have word := State.resolveBinary_inside resolved
    rw [State.store_advance_ip_toNat legal word]
    omega
  | inTransfer d dest =>
    have word := State.writeOperand_inside dest
    rw [State.inputTransfer_ip_toNat legal word]
    split <;> omega
  | outTransfer m1 v resolved =>
    have word := State.resolveSource_inside resolved
    rw [State.outputTransfer_ip_toNat legal word]
    split <;> omega
  | halts =>
    have ip : ((s.halt false).advance 1).ip.toNat = s.ip.toNat + 1 :=
      State.advance_ip_toNat legal inside
    omega
  | addFaults | mulFaults | inFaults | outFaults | divRaises | jgeRaises | invalidRaises =>
    rw [State.takeFault_ip]
    omega

/-- Settles O56: an instruction keeps N and does not lower `ip`, and the other moves of a core out
of reset touch neither. -/
theorem sizeIsFixedAndIpNeverFalls : Obligations.SizeIsFixedAndIpNeverFalls := by
  intro s t noRst released stepped
  cases step_move stepped with
  | resets rst => exact absurd (rst.symm.trans noRst) (by decide)
  | releases _ inReset => exact absurd (inReset.symm.trans released) (by decide)
  | holds | ends => exact ⟨rfl, le_refl _, released⟩
  | runs _ _ _ legal inside w u _ executed =>
    obtain ⟨size, flag, -⟩ := exec_frame executed
    obtain ⟨lower, -⟩ := exec_ip_bounds legal inside executed
    exact ⟨size, lower, flag.trans released⟩

/-! ### Several steps -/

theorem steps_succ_of_step {s t : State} (stepped : step s = .next t) (n : Nat) :
    steps (n + 1) s = steps n t := by
  rw [steps, stepped]

theorem steps_add_of_steps {n : Nat} {s t : State} (reached : steps n s = .next t) (k : Nat) :
    steps (n + k) s = steps k t := by
  induction n generalizing s with
  | zero =>
    cases reached
    rw [Nat.zero_add]
  | succ n ih =>
    rw [steps] at reached
    rw [Nat.succ_add, steps]
    split at reached
    · exact ih reached
    · cases reached
    · cases reached

theorem State.Destination.lt {s : State} {k d : Nat} (dest : s.Destination k d) :
    d < s.msize.toNat := by
  obtain ⟨p, -, -, nonneg, upper, address⟩ := dest
  omega

/-- An ADD or MUL, said by the exact value `op` that it wraps and stores (41_arithmetic.md R76,
R77). -/
theorem exec_of_binary {s : State} {i : Instr} {m1 m2 : Mode} {v1 v2 : Word} {d : Nat} {op : Int}
    (form : (i = .add m1 m2 ∧ op = v1.toInt + v2.toInt) ∨
      (i = .mul m1 m2 ∧ op = v1.toInt * v2.toInt))
    (first : s.SourceValue 1 m1 v1) (second : s.SourceValue 2 m2 v2) (dest : s.Destination 3 d) :
    exec i s = .next ((s.store d (BitVec.ofInt 64 op)).advance 4) := by
  obtain ⟨rfl, rfl⟩ | ⟨rfl, rfl⟩ := form
  · exact State.aluInstr_of_ok aluAdd first second dest
  · exact State.aluInstr_of_ok aluMul first second dest

/-- Settles O39: the first step stores the word that the second one fetches. -/
theorem nextFetchSeesTheWrite : Obligations.NextFetchSeesTheWrite := by
  intro s w m1 m2 v1 v2 op ready inside stored form first second dest noRst t u written executed
  have ⟨running, released, legal, _⟩ := ready
  have stepped : step s = .next t := by
    rw [step_of_exec_next ready inside stored (exec_of_binary form first second dest), written]
    rfl
  have ip : t.ip.toNat = s.ip.toNat + 4 := by
    rw [written]
    exact State.advance_ip_toNat legal dest.lt.le
  have ready' : t.ready := by
    rw [written]
    exact ⟨running, released, legal, noRst⟩
  have inside' : t.ip.toNat < t.msize.toNat := by
    rw [ip, written]
    exact dest.lt
  have stored' : t.mem.read t.ip.toNat = some (BitVec.ofInt 64 op) := by
    rw [ip, written]
    exact Memory.read_write_same s.mem _ _
  have stepped' := step_of_exec_next ready' inside' stored' executed
  rw [steps_succ_of_step stepped, steps_succ_of_step stepped', written]
  rfl

end Sys2Proof.Machine
end

section
/-! Reset and loading (70_reset_and_hazards.md R107 to R112): edges with `rst = 1`, the release
edge, and an image loaded through the ports. -/

namespace Sys2Proof.Machine

section

variable {s : State}

theorem State.inReady_of_rst (rst : s.pins.rst = true) : s.inReady = false := by
  simp [State.inReady, rst]

theorem State.outValid_of_rst (rst : s.pins.rst = true) : s.outValid = false := by
  simp [State.outValid, rst]

theorem step_of_rst (rst : s.pins.rst = true) : step s = .next (s.resetEdge s.pins).popHost := by
  simp [step, State.tick, State.event, rst]

theorem step_of_release_edge (noRst : s.pins.rst = false) (inReset : s.inReset = true) :
    step s = mapNext State.popHost s.release := by
  simp [step, State.tick, State.event, noRst, inReset]

theorem step_of_release (noRst : s.pins.rst = false) (inReset : s.inReset = true)
    (legal : s.sizeLegal = true) (fits : s.msize.toNat ≤ Config.memCapacity) :
    step s = .next s.resetValues.popHost := by
  rw [step_of_release_edge noRst inReset, State.release, if_pos ⟨legal, fits⟩, mapNext_next]

end

/-- Settles O49: with `rst = 1` the ready and valid outputs are 0, and the edge is
`State.resetEdge`. -/
theorem resetEdgeLoadsAndDropsTheWait : Obligations.ResetEdgeLoadsAndDropsTheWait :=
  fun _ rst => ⟨State.inReady_of_rst rst, State.outValid_of_rst rst, step_of_rst rst⟩

/-- Settles O50: the release edge gives `State.resetValues` for a legal size, and refuses any other.
-/
theorem releaseSetsTheResetValues : Obligations.ReleaseSetsTheResetValues := by
  intro s noRst inReset
  refine ⟨fun lower upper fits => ?_, fun bad => ?_⟩
  · exact step_of_release noRst inReset (s.sizeLegal_iff.mpr ⟨lower, upper⟩) fits
  · rw [← and_assoc, ← s.sizeLegal_iff] at bad
    rw [step_of_release_edge noRst inReset, State.release, if_neg bad, mapNext_refused]

/-- An edge with `rst = 1` and no load keeps M and N (R111). -/
theorem State.load_of_no_write {s : State} {p : Pins} (noCell : p.ldWe = false)
    (noSize : p.ldSizeWe = false) : s.load p = s := by
  simp [State.load, noCell, noSize]

/-- Settles O51: a reset edge without a load, then the release edge. -/
theorem resetPulseRestartsFromMemory : Obligations.ResetPulseRestartsFromMemory := by
  intro s p q rest host rst noCell noSize noRst legal fits
  have pins : s.pins = p := State.pins_cons host
  have pulse : step s = .next { s with wait := .idle, inReset := true, host := q :: rest } := by
    rw [step_of_rst (by rw [pins, rst]), pins, State.popHost, State.resetEdge_host, host,
      List.tail_cons, State.resetEdge, State.load_of_no_write noCell noSize]
  have released := step_of_release
    (s := { s with wait := .idle, inReset := true, host := q :: rest })
    noRst rfl legal fits
  rw [steps_succ_of_step pulse, steps_succ_of_step released]
  rfl

/-! ### An image loaded through the ports -/

/-- Cells above the placed ones are unchanged. -/
theorem Memory.read_writeAll_above (m : Memory) {a b : Nat} (vs : List Word)
    (h : a + vs.length ≤ b) :
    (m.writeAll a vs).read b = m.read b := by
  induction vs generalizing m a with
  | nil => rfl
  | cons v vs ih =>
    rw [List.length_cons] at h
    rw [Memory.writeAll, ih _ (by omega), Memory.read_write_other _ _ (by omega)]

theorem step_loadSize {s : State} {n : Nat} {rest : List Pins}
    (host : s.host = Pins.loadSize n :: rest) :
    step s = .next { s with
      msize := BitVec.ofNat 64 n, wait := .idle, inReset := true, host := rest } := by
  have pins : s.pins = Pins.loadSize n := State.pins_cons host
  rw [step_of_rst (by rw [pins]; rfl), pins, State.popHost, State.resetEdge_host, host,
    List.tail_cons]
  rfl

theorem step_loadCell {s : State} {a : Nat} {v : Word} {rest : List Pins} (address : a < 2 ^ 64)
    (fits : a < Config.memCapacity) (host : s.host = Pins.loadCell a v :: rest) :
    step s = .next { s with
      mem := s.mem.write a v, wait := .idle, inReset := true, host := rest } := by
  have pins : s.pins = Pins.loadCell a v := State.pins_cons host
  have index : (BitVec.ofNat 64 a).toNat = a := by rw [BitVec.toNat_ofNat, Nat.mod_eq_of_lt address]
  have load : s.load (Pins.loadCell a v) = { s with mem := s.mem.write a v } := by
    simp [State.load, Pins.loadCell, Pins.quiet, index, fits]
  rw [step_of_rst (by rw [pins]; rfl), pins, State.popHost, State.resetEdge_host, host,
    List.tail_cons, State.resetEdge, load]

/-- The loads of the cells from `a` up write those cells and nothing else of a core in reset (R108).
-/
theorem steps_loadCells {vs : List Word} {a : Nat} {s : State} {rest : List Pins}
    (address : a + vs.length ≤ 2 ^ 64) (fits : a + vs.length ≤ Config.memCapacity)
    (idle : s.wait = .idle) (inReset : s.inReset = true) (host : s.host = loadCells a vs ++ rest) :
    steps vs.length s = .next { s with mem := s.mem.writeAll a vs, host := rest } := by
  induction vs generalizing a s with
  | nil => rw [List.length_nil, steps, Memory.writeAll, show rest = s.host from host.symm]
  | cons v vs ih =>
    rw [List.length_cons] at address fits ⊢
    have written := step_loadCell (s := s) (by omega) (by omega) host
    rw [← idle, ← inReset] at written
    rw [steps_succ_of_step written]
    exact ih (a := a + 1) (by omega) (by omega) idle inReset rfl

/-- The loads of an image leave it in memory, and the core in reset. -/
theorem steps_loadDrives {s : State} {image : List Word} {rest : List Pins}
    (address : image.length ≤ 2 ^ 64) (fits : image.length ≤ Config.memCapacity)
    (host : s.host = loadDrives image ++ rest) :
    steps (image.length + 1) s = .next { s with
      mem := s.mem.writeAll 0 image, msize := BitVec.ofNat 64 image.length, wait := .idle
      inReset := true, host := Pins.quiet :: rest } := by
  have sized := step_loadSize (s := s) (n := image.length)
    (rest := loadCells 0 image ++ Pins.quiet :: rest) (by simp [host, loadDrives])
  rw [steps_succ_of_step sized]
  exact steps_loadCells (by omega) (by omega) rfl rfl rfl

/-- Settles O52: the size, every cell in order, and the release. -/
theorem loadedImageStandsInMemory : Obligations.LoadedImageStandsInMemory := by
  intro s image rest nonempty bound fits host
  have size : (BitVec.ofNat 64 image.length).toNat = image.length := by
    rw [BitVec.toNat_ofNat]
    omega
  have loaded := steps_loadDrives (by omega) fits host
  have released := step_of_release (s := { s with
      mem := s.mem.writeAll 0 image, msize := BitVec.ofNat 64 image.length, wait := .idle
      inReset := true, host := Pins.quiet :: rest })
    rfl rfl ((State.sizeLegal_iff _).mpr ⟨nonempty.trans_eq size.symm, size.trans_lt bound⟩)
    (size.trans_le fits)
  refine ⟨_, (steps_add_of_steps loaded 1).trans (steps_succ_of_step released 0), size,
    fun i below => ?_, fun a above => ?_, rfl, rfl, rfl, rfl, rfl, rfl, rfl, rfl, rfl, rfl, rfl⟩
  · have placed := Memory.read_writeAll_at s.mem 0 image below
    rwa [Nat.zero_add] at placed
  · exact Memory.read_writeAll_above s.mem image (by omega)

/-! ### `withFetchWord` (log 4) -/

section

variable {s : State} (nbits w : Nat)

theorem State.withFetchWord_pins_rst : (s.withFetchWord nbits w).pins.rst = false := by
  have placed : (s.withFetchWord nbits w).host = if s.pins.rst then [] else s.host := rfl
  cases rst : s.pins.rst with
  | true =>
    rw [rst] at placed
    rw [State.pins_nil placed]
    rfl
  | false =>
    rw [rst] at placed
    rw [← rst, State.pins, placed]
    rfl

theorem State.withFetchWord_msize_toNat (bound : s.ip.toNat + 4 < 2 ^ 63) :
    s.ip.toNat + 4 ≤ (s.withFetchWord nbits w).msize.toNat ∧
      (s.withFetchWord nbits w).msize.toNat < 2 ^ 63 := by
  have size : (s.withFetchWord nbits w).msize =
      if s.msize.toNat < s.ip.toNat + 4 ∨ 2 ^ 63 ≤ s.msize.toNat then
        BitVec.ofNat 64 (s.ip.toNat + 4) else s.msize := rfl
  rw [size]
  split
  · rw [BitVec.toNat_ofNat]
    omega
  · omega

theorem State.withFetchWord_read :
    (s.withFetchWord nbits w).mem.read s.ip.toNat = some (tableCell nbits w 0) :=
  Memory.read_writeAll_at s.mem s.ip.toNat
    [tableCell nbits w 0, tableCell nbits w 1, tableCell nbits w 2, tableCell nbits w 3]
    (i := 0) (Nat.zero_lt_succ 3)

end

/-- Settles O53: the placed state is ready, and its word at `ip` is the table word's first cell. -/
theorem placedInstructionRunsNext : Obligations.PlacedInstructionRunsNext := by
  rintro s t nbits w _ bound ⟨⟩ executed
  obtain ⟨lower, upper⟩ := State.withFetchWord_msize_toNat nbits w bound
  have ip : (s.withFetchWord nbits w).ip = s.ip := rfl
  have ready : (s.withFetchWord nbits w).ready :=
    ⟨rfl, rfl, (State.sizeLegal_iff _).mpr ⟨by omega, upper⟩, State.withFetchWord_pins_rst nbits w⟩
  have stored := State.withFetchWord_read (s := s) nbits w
  rw [step_of_instruction ready (by rw [ip]; omega) (ip ▸ stored), executed, mapNext_next]

end Sys2Proof.Machine
end

section
/-! The output ports: status codes (10_state.md R15 to R17), the memory read port (20_memory.md
R40), the inspection port (30_encoding.md R64) and the fault report (60_exceptions.md R106). -/

namespace Sys2Proof.Machine

/-! ### Status codes -/

theorem Status.bits_eq_faulted_iff {st : Status} : st.bits = 0b10#2 ↔ st = .faulted := by
  cases st <;> decide

theorem Status.bits_eq_reserved_iff {st : Status} : st.bits = 0b11#2 ↔ st = .reserved := by
  cases st <;> decide

theorem FaultCode.bits_eq_zero_iff {c : FaultCode} : c.bits = 0b00#2 ↔ c = .noFault := by
  cases c <;> decide

theorem haltKindBits_eq_one_iff {kind : Bool} : haltKindBits kind = 0b1#1 ↔ kind = true := by
  cases kind <;> decide

/-- Settles O45: each code stands for one value, and the invariant ties the registers together. -/
theorem statusPortsShowTheCodes : Obligations.StatusPortsShowTheCodes := by
  intro s inv
  refine ⟨fun h => congrArg Status.bits h, fun h => congrArg Status.bits h,
    fun h => congrArg Status.bits h, mt Status.bits_eq_reserved_iff.mp inv.statusLegal,
    fun notHalted => ?_, haltKindBits_eq_one_iff, fun h => congrArg FaultCode.bits h,
    fun h => congrArg FaultCode.bits h, fun h => congrArg FaultCode.bits h, ?_⟩
  · exact congrArg haltKindBits (Bool.eq_false_iff.mpr (mt inv.haltKindHalted notHalted))
  · exact (not_congr FaultCode.bits_eq_zero_iff).trans
      (inv.faultCodeFaulted.trans Status.bits_eq_faulted_iff.symm)

/-! ### Reading and inspecting -/

theorem State.hostMayRead_iff (s : State) :
    s.hostMayRead = true ↔ s.pins.rst = true ∨ s.status = .halted ∨ s.status = .faulted := by
  simp [State.hostMayRead, State.runOver]

/-- Settles O48: the ports have a meaning exactly when the host may read. -/
theorem hostReadsInResetOrTerminal : Obligations.HostReadsInResetOrTerminal := by
  refine fun s => ⟨fun allowed below => ?_, fun allowed => ⟨?_, s.valid_iff_toInt _⟩,
    fun above => ?_, fun noRst running => ?_⟩
  · rw [State.rdData, if_pos ⟨s.hostMayRead_iff.mpr allowed, below⟩]
  · rw [State.inspPort, if_pos (s.hostMayRead_iff.mpr allowed)]
  · rw [State.rdData, if_neg (by omega)]
  · have denied : ¬s.hostMayRead = true := by simp [s.hostMayRead_iff, noRst, running]
    rw [State.rdData, State.inspPort, if_neg (fun h => denied h.1), if_neg denied]
    exact ⟨rfl, rfl⟩

theorem State.inspOperand_ok_iff (s : State) (a count k : Nat) :
    (s.inspOperand a count k).ok = true ↔ k ≤ count ∧ a + k < s.msize.toNat := by
  rw [State.inspOperand]
  split
  · exact iff_of_true rfl ‹_›
  · exact iff_of_false Bool.false_ne_true ‹_›

theorem State.inspOperand_value {s : State} {a count k : Nat}
    (ok : (s.inspOperand a count k).ok = true) :
    (s.inspOperand a count k).value = s.mem.read (a + k) := by
  rw [State.inspOperand, if_pos ((s.inspOperand_ok_iff a count k).mp ok)]

theorem inspCount_le (i : Instr) : inspCount i ≤ 3 := by
  cases i with
  | add | mul | inp | out | halt | invalid => simp [inspCount]
  | div => exact Nat.le_of_lt_succ Config.inspArityDiv.isLt
  | jge => exact Nat.le_of_lt_succ Config.inspArityJge.isLt

theorem State.inspect_of_loaded {s : State} {a w : Word} (valid : s.inspOk a = true)
    (stored : s.mem.read a.toNat = some w) : s.inspect a = some (s.describe a.toNat w) := by
  rw [State.inspect, if_pos valid, stored, Option.map_some]

theorem State.inspOk_of_lt {s : State} {a : Word} (legal : s.sizeLegal = true)
    (below : a.toNat < s.msize.toNat) : s.inspOk a = true := by
  obtain ⟨-, bound⟩ := s.sizeLegal_iff.mp legal
  exact (s.valid_iff a).mpr ⟨below, by omega⟩

theorem State.describe_opc_toInt (s : State) (a : Nat) (w : Word) :
    (s.describe a w).opc.toInt = (decodeFields w).opc := by
  obtain ⟨lower, upper⟩ := decodeFields_opc_range w
  exact wrap64_toInt (by omega) (by omega)

theorem State.describe_next_toNat (s : State) {a : Nat} (bound : a < 2 ^ 63) (w : Word) :
    (s.describe a w).next.toNat = a + 1 + inspCount (decode w) := by
  have count := inspCount_le (decode w)
  rw [State.describe, BitVec.toNat_ofNat]
  omega

/-- The inspection of a word without a named opcode (30_encoding.md R64). -/
theorem decode_of_opc_unnamed {w : Word}
    (unnamed : (decodeFields w).opc ∉ ([1, 2, 3, 4, 99, 50, 60] : List Int)) :
    decode w = .invalid (decodeFields w).opc := by
  apply decode_of_opc_not_mem_namedOpcodes
  simp only [namedOpcodes, List.mem_cons, List.not_mem_nil, or_false, not_or] at unnamed ⊢
  omega

/-- Settles O46: the inspection of a loaded valid address is `State.describe`, read off by opcode.
-/
theorem inspectionDescribesTheWord : Obligations.InspectionDescribesTheWord := by
  intro s a w legal below stored
  have ok := State.inspOk_of_lt legal below
  obtain ⟨-, bound⟩ := s.sizeLegal_iff.mp legal
  have named {i : Instr} (decoded : decode w = i) :
      (s.describe a.toNat w).name.code = (opName i).code ∧
        (s.describe a.toNat w).count = inspCount i := by
    rw [← decoded]
    exact ⟨rfl, rfl⟩
  exact ⟨ok, s.describe a.toNat w, State.inspect_of_loaded ok stored, rfl, s.describe_opc_toInt _ w,
    rfl, fun h => named (decode_of_opc_eq_one h), fun h => named (decode_of_opc_eq_two h),
    fun h => named (decode_of_opc_eq_three h), fun h => named (decode_of_opc_eq_four h),
    fun h => named (decode_of_opc_eq_ninetyNine h), fun h => named (decode_of_opc_eq_fifty h),
    fun h => named (decode_of_opc_eq_sixty h), fun h => named (decode_of_opc_unnamed h),
    s.inspOperand_ok_iff _ _ 1, s.inspOperand_ok_iff _ _ 2, s.inspOperand_ok_iff _ _ 3,
    State.inspOperand_value, State.inspOperand_value, State.inspOperand_value,
    s.describe_next_toNat (by omega) w⟩

/-- Settles O47: by the invariant FAULT_PC is `ip`, whose inspection is `State.describe`. -/
theorem faultReportNamesTheInstruction : Obligations.FaultReportNamesTheInstruction := by
  intro s w inv faulted legal inside stored
  have pc := inv.faultPcIp faulted
  have inspected := State.inspect_of_loaded (State.inspOk_of_lt legal inside) stored
  refine ⟨_, s.describe s.ip.toNat w, if_pos faulted, pc, rfl, rfl, congrArg s.inspect pc,
    (congrArg s.inspect pc).trans inspected, rfl, rfl, rfl, s.inspOperand_ok_iff _ _ 1,
    s.inspOperand_ok_iff _ _ 2, s.inspOperand_ok_iff _ _ 3, State.inspOperand_value,
    State.inspOperand_value, State.inspOperand_value, ?_⟩
  exact ⟨fun h => congrArg FaultCode.reason h, fun h => congrArg FaultCode.reason h,
    fun h => congrArg FaultCode.reason h⟩

end Sys2Proof.Machine
end

section
/-! The invariant (10_state.md R14 to R21): each operation of a step keeps it, so every step does.
-/

namespace Sys2Proof.Machine

/-! ### What the invariant says of a wait -/

section

variable {s : State} {w : Word} (inv : s.Inv)

include inv

theorem State.Inv.decode_of_wait_input (waiting : s.wait = .input)
    (stored : s.mem.read s.ip.toNat = some w) :
    decode w = .inp ∧ ∃ d, s.resolveDest = .ok d := by
  obtain ⟨w', d, stored', decoded, resolved⟩ := inv.waitInput waiting
  obtain rfl : w = w' := Option.some.inj (stored.symm.trans stored')
  exact ⟨decoded, d, resolved⟩

theorem State.Inv.decode_of_wait_output (waiting : s.wait = .output)
    (stored : s.mem.read s.ip.toNat = some w) :
    ∃ m1 v, decode w = .out m1 ∧ s.resolveSource m1 = .ok v := by
  obtain ⟨w', m1, v, stored', decoded, resolved⟩ := inv.waitOutput waiting
  obtain rfl : w = w' := Option.some.inj (stored.symm.trans stored')
  exact ⟨m1, v, decoded, resolved⟩

theorem State.Inv.wait_ne_input (stored : s.mem.read s.ip.toNat = some w)
    (other : decode w ≠ .inp) :
    s.wait ≠ .input :=
  fun waiting => other (inv.decode_of_wait_input waiting stored).1

theorem State.Inv.wait_ne_output (stored : s.mem.read s.ip.toNat = some w)
    (other : ∀ m1, decode w ≠ .out m1) : s.wait ≠ .output := by
  intro waiting
  obtain ⟨m1, _, decoded, -⟩ := inv.decode_of_wait_output waiting stored
  exact other m1 decoded

end

theorem State.wait_eq_idle {s : State} (notInput : s.wait ≠ .input) (notOutput : s.wait ≠ .output) :
    s.wait = .idle := by
  cases h : s.wait with
  | idle => rfl
  | input => exact absurd h notInput
  | output => exact absurd h notOutput

/-- Only an instruction at `ip` that makes a transfer is waited for (10_state.md R21). -/
theorem State.Inv.idle_of_decode {s : State} {w : Word} (inv : s.Inv)
    (stored : s.mem.read s.ip.toNat = some w) (notIn : decode w ≠ .inp)
    (notOut : ∀ m1, decode w ≠ .out m1) : s.wait = .idle :=
  State.wait_eq_idle (inv.wait_ne_input stored notIn) (inv.wait_ne_output stored notOut)

/-- A core at the boundary waits for nothing. -/
theorem State.Inv.idle_at_boundary {s : State} (inv : s.Inv)
    (boundary : s.msize.toNat ≤ s.ip.toNat) :
    s.wait = .idle := by
  by_contra waiting
  obtain ⟨-, -, -, inside⟩ := inv.waitRunning waiting
  omega

/-! ### The operations that keep the invariant -/

/-- A Running core that does not wait and has taken no fault. -/
theorem State.Inv.of_running {s : State} (canonical : s.mem.wf = true)
    (bound : s.ip.toNat ≤ s.msize.toNat) (running : s.status = .running) (kind : s.haltKind = false)
    (code : s.faultCode = .noFault) (pc : s.faultPc = 0) (value : s.faultValue = 0)
    (idle : s.wait = .idle) : s.Inv := by
  constructor <;> simp_all

/-- Settles O54: after reset the core is Running at 0, waits for nothing and has taken no fault. -/
theorem resetMeetsTheInvariant : Obligations.ResetMeetsTheInvariant :=
  .of_running rfl (Nat.zero_le _) rfl rfl rfl rfl rfl rfl

theorem State.load_mem_wf {s : State} (canonical : s.mem.wf = true) (p : Pins) :
    (s.load p).mem.wf = true := by
  rw [State.load]
  dsimp only
  split
  · exact Memory.wf_write _ _ canonical
  · exact canonical

/-- What a fault report may hold (10_state.md R17, R19; 60_exceptions.md R92). -/
structure State.LegalReport (s : State) (c : FaultCode) (v : Word) : Prop where
  coded : c ≠ .noFault
  mode : c = .invalidMode → 2 ≤ v.toNat ∧ v.toNat ≤ 9
  opcode : c = .invalidOpcode →
    -99 ≤ v.toInt ∧ v.toInt ≤ 99 ∧ v.toInt ∉ ([1, 2, 3, 4, 99] : List Int)
  address : c = .badAddress → s.valid v = false

theorem State.LegalReport.of_badAddress {s : State} {v : Word} (invalid : s.valid v = false) :
    s.LegalReport .badAddress v :=
  ⟨by decide, nofun, nofun, fun _ => invalid⟩

theorem State.LegalReport.of_invalidMode {s : State} {v : Word} (lower : 2 ≤ v.toNat)
    (upper : v.toNat ≤ 9) : s.LegalReport .invalidMode v :=
  ⟨by decide, fun _ => ⟨lower, upper⟩, nofun, nofun⟩

/-- Every instruction outside VALID reports its own opcode (43_reserved_and_invalid.md R88 to R90).
-/
theorem State.LegalReport.of_valid_eq_false {i : Instr} (wf : i.wf = true)
    (invalid : i.valid = false)
    (s : State) : s.LegalReport .invalidOpcode (wrap64 i.opcode) := by
  have ⟨lower, upper⟩ := Instr.opcode_range wf
  refine ⟨by decide, nofun, fun _ => ?_, nofun⟩
  rw [Instr.wrap64_opcode_toInt wf, ← Instr.valid_iff_opcode_mem wf]
  exact ⟨lower, upper, by simp [invalid]⟩

section

variable {s : State} (inv : s.Inv)

include inv

theorem State.Inv.popHost : s.popHost.Inv := { inv with }

theorem State.Inv.resetEdge (p : Pins) : (s.resetEdge p).Inv :=
  { inv with
    memCanonical := State.load_mem_wf inv.memCanonical p
    ipBound := nofun
    boundaryAtEnd := nofun
    faultValueAddress := nofun
    waitRunning := fun waits => absurd rfl waits
    waitInput := nofun
    waitOutput := nofun }

theorem State.Inv.resetValues : s.resetValues.Inv :=
  .of_running inv.memCanonical (Nat.zero_le _) rfl rfl rfl rfl rfl rfl

theorem State.Inv.halt (running : s.status = .running) (idle : s.wait = .idle) {boundary : Bool}
    (atEnd : boundary = true → s.ip = s.msize) : (s.halt boundary).Inv :=
  { inv with
    statusLegal := by simp
    haltKindHalted := fun _ => rfl
    boundaryAtEnd := fun _ => atEnd
    faultCodeFaulted := by simp [inv.faultCodeFaulted, running]
    faultRegsClear := fun _ => inv.faultRegsClear (by simp [running])
    faultPcIp := nofun
    waitRunning := fun waits => absurd idle waits }

theorem State.Inv.takeFault (running : s.status = .running) {c : FaultCode} {v : Word}
    (report : s.LegalReport c v) : (s.takeFault c v).Inv :=
  { inv with
    statusLegal := by simp
    haltKindHalted := by simp [inv.haltKind_eq_false running]
    boundaryAtEnd := by simp [inv.haltKind_eq_false running]
    faultCodeFaulted := iff_of_true report.coded rfl
    faultRegsClear := fun sound => absurd rfl sound
    faultPcIp := fun _ => rfl
    faultValueMode := report.mode
    faultValueOpcode := report.opcode
    faultValueAddress := fun _ => report.address
    waitRunning := fun waits => absurd rfl waits
    waitInput := nofun
    waitOutput := nofun }

theorem State.Inv.store (idle : s.wait = .idle) (d : Nat) (v : Word) : (s.store d v).Inv :=
  { inv with
    memCanonical := Memory.wf_write d v inv.memCanonical
    waitInput := by simp [idle]
    waitOutput := by simp [idle] }

theorem State.Inv.advance (idle : s.wait = .idle) (sound : s.status ≠ .faulted)
    (kind : s.haltKind = false) {n : Nat} (bound : (s.advance n).ip.toNat ≤ s.msize.toNat) :
    (s.advance n).Inv :=
  { inv with
    ipBound := fun _ => bound
    boundaryAtEnd := by simp [kind]
    faultPcIp := fun faulted => absurd faulted sound
    waitRunning := fun waits => absurd idle waits
    waitInput := by simp [idle]
    waitOutput := by simp [idle] }

/-- The end of a wait, with any stream histories. -/
theorem State.Inv.endWait (ins outs : List Word) :
    State.Inv { s with wait := .idle, inputsTaken := ins, outputs := outs } :=
  { inv with
    waitRunning := fun waits => absurd rfl waits
    waitInput := nofun
    waitOutput := nofun }

end

/-! ### The instructions -/

section

variable {s : State} {w : Word} (inv : s.Inv) (running : s.status = .running)
  (released : s.inReset = false) (legal : s.sizeLegal = true) (inside : s.ip.toNat < s.msize.toNat)
  (stored : s.mem.read s.ip.toNat = some w)

include inv running released legal inside stored

/-- IN sets WAIT only once its destination has resolved (42_io.md R82, R83). -/
theorem State.Inv.beginInput {d : Nat} (decoded : decode w = .inp)
    (resolved : s.resolveDest = .ok d) :
    State.Inv { s with wait := .input } :=
  { inv with
    waitRunning := fun _ => ⟨running, released, legal, inside⟩
    waitInput := fun _ => ⟨w, d, stored, decoded, resolved⟩
    waitOutput := nofun }

/-- OUT sets WAIT only once its operand has a value (42_io.md R85). -/
theorem State.Inv.beginOutput {m1 : Mode} {v : Word} (decoded : decode w = .out m1)
    (resolved : s.resolveSource m1 = .ok v) : State.Inv { s with wait := .output } :=
  { inv with
    waitRunning := fun _ => ⟨running, released, legal, inside⟩
    waitInput := nofun
    waitOutput := fun _ => ⟨w, m1, v, stored, decoded, resolved⟩ }

theorem State.Inv.inputTransfer {d : Nat} (decoded : decode w = .inp)
    (resolved : s.resolveDest = .ok d) : (s.inputTransfer d).Inv := by
  have upper : s.ip.toNat + 2 ≤ s.msize.toNat := State.writeOperand_inside resolved
  have sound : s.status ≠ .faulted := by simp [running]
  obtain ⟨-, eq⟩ | ⟨-, -, eq⟩ | ⟨-, -, eq⟩ := s.inputTransfer_cases d <;> rw [eq]
  · exact inv.beginInput running released legal inside stored decoded resolved
  · exact inv
  · refine ((inv.endWait _ s.outputs).store rfl d _).advance rfl sound
      (inv.haltKind_eq_false running) ?_
    exact (State.advance_ip_toNat legal upper).trans_le upper

theorem State.Inv.outputTransfer {m1 : Mode} {v : Word} (decoded : decode w = .out m1)
    (resolved : s.resolveSource m1 = .ok v) : (s.outputTransfer v).Inv := by
  have upper : s.ip.toNat + 2 ≤ s.msize.toNat := State.resolveSource_inside resolved
  have sound : s.status ≠ .faulted := by simp [running]
  obtain ⟨-, eq⟩ | ⟨-, -, eq⟩ | ⟨-, -, eq⟩ := s.outputTransfer_cases v <;> rw [eq]
  · exact inv.beginOutput running released legal inside stored decoded resolved
  · exact inv
  · refine (inv.endWait s.inputsTaken _).advance rfl sound (inv.haltKind_eq_false running) ?_
    exact (State.advance_ip_toNat legal upper).trans_le upper

theorem State.Inv.of_exec {t : State} (executed : exec (decode w) s = .next t) : t.Inv := by
  have wf := decode_wf w
  have idle := inv.idle_of_decode stored
  have kind := inv.haltKind_eq_false running
  have sound : s.status ≠ .faulted := by simp [running]
  generalize decoded : decode w = i at executed wf idle
  cases exec_effect executed with
  | addWrites m1 m2 v1 v2 d resolved | mulWrites m1 m2 v1 v2 d resolved =>
    have upper : s.ip.toNat + 4 ≤ s.msize.toNat := State.resolveBinary_inside resolved
    have idle := idle nofun nofun
    refine (inv.store idle d _).advance idle sound kind ?_
    exact (State.store_advance_ip_toNat legal upper d _).trans_le upper
  | addFaults m1 m2 c v trapped | mulFaults m1 m2 c v trapped =>
    simp only [Instr.wf, Bool.and_eq_true] at wf
    obtain ⟨rfl, invalid⟩ | ⟨rfl, lower, upper, -⟩ :=
      State.resolveBinary_report legal inside wf.1 wf.2 trapped
    · exact inv.takeFault running (.of_badAddress invalid)
    · exact inv.takeFault running (.of_invalidMode lower upper)
  | inTransfer d resolved =>
    exact inv.inputTransfer running released legal inside stored decoded resolved
  | inFaults c v trapped =>
    obtain ⟨rfl, invalid⟩ := State.resolveDest_report legal inside trapped
    exact inv.takeFault running (.of_badAddress invalid)
  | outTransfer m1 v resolved =>
    exact inv.outputTransfer running released legal inside stored decoded resolved
  | outFaults m1 c v trapped =>
    obtain ⟨rfl, invalid⟩ | ⟨rfl, lower, upper, -⟩ :=
      State.resolveSource_report legal inside wf trapped
    · exact inv.takeFault running (.of_badAddress invalid)
    · exact inv.takeFault running (.of_invalidMode lower upper)
  | halts =>
    have idle := idle nofun nofun
    refine (inv.halt (boundary := false) running idle nofun).advance idle nofun rfl ?_
    exact (State.advance_ip_toNat legal inside).trans_le inside
  | divRaises => exact inv.takeFault running (.of_valid_eq_false (i := .div) wf rfl s)
  | jgeRaises => exact inv.takeFault running (.of_valid_eq_false (i := .jge) wf rfl s)
  | invalidRaises opc =>
    exact inv.takeFault running (.of_valid_eq_false (i := .invalid opc) wf rfl s)

end

theorem step_keeps_inv {s t : State} (inv : s.Inv) (stepped : step s = .next t) : t.Inv := by
  cases step_move stepped with
  | resets => exact (inv.resetEdge _).popHost
  | releases => exact inv.resetValues.popHost
  | holds => exact inv.popHost
  | ends noRst released running legal boundary =>
    have atEnd : s.ip = s.msize :=
      BitVec.eq_of_toNat_eq (le_antisymm (inv.ipBound released) boundary)
    exact (inv.halt running (inv.idle_at_boundary boundary) fun _ => atEnd).popHost
  | runs noRst released running legal inside w u stored executed =>
    exact (inv.of_exec running released legal inside stored executed).popHost

/-- Settles O55: reset, release, boundary and every instruction keep the invariant, each by its own
operation. -/
theorem stepKeepsTheInvariant : Obligations.StepKeepsTheInvariant :=
  fun _ _ inv stepped => step_keeps_inv inv stepped

end Sys2Proof.Machine
end

section
/-! The streams (10_state.md R25, 42_io.md R85, R86): when a transfer happens, what an OUT offers,
and waits that the host does not answer (42_io.md R87). -/

namespace Sys2Proof.Machine

section

variable {s : State} {w : Word}

theorem State.inReady_of_wait_ne (notInput : s.wait ≠ .input) : s.inReady = false := by
  simp [State.inReady, notInput]

theorem State.outValid_of_wait_ne (notOutput : s.wait ≠ .output) : s.outValid = false := by
  simp [State.outValid, notOutput]

theorem State.outValid_iff : s.outValid = true ↔ s.wait = .output ∧ s.pins.rst = false := by
  simp [State.outValid]

theorem State.inReady_of_waiting (waiting : s.wait = .input) (noRst : s.pins.rst = false) :
    s.inReady = true := by
  simp [State.inReady, waiting, noRst]

/-- The OUT at `ip` offers the value of its operand (42_io.md R84). -/
theorem State.offeredValue_of_out {m1 : Mode} {v : Word} (stored : s.mem.read s.ip.toNat = some w)
    (decoded : decode w = .out m1) (resolved : s.resolveSource m1 = .ok v) :
    s.offeredValue = some v := by
  simp [State.offeredValue, State.cell_eq_ok.mpr stored, decoded, resolved]

theorem State.outData_of_outValid (valid : s.outValid = true) : s.outData = s.offeredValue := by
  rw [State.outData, if_pos valid]

end

/-! ### One step of a stream -/

/-- From `s` to `t` each stream grew by one value where its ready and valid are both 1, and not
otherwise (10_state.md R25). -/
def State.TransfersTo (s t : State) : Prop :=
  (s.inReady = true ∧ s.pins.inValid = true → t.inputsTaken = s.inputsTaken ++ [s.pins.inData]) ∧
  (¬(s.inReady = true ∧ s.pins.inValid = true) → t.inputsTaken = s.inputsTaken) ∧
  (s.outValid = true ∧ s.pins.outReady = true →
    ∃ v, s.outData = some v ∧ t.outputs = s.outputs ++ [v]) ∧
  (¬(s.outValid = true ∧ s.pins.outReady = true) → t.outputs = s.outputs)

section

variable {s t : State}

theorem State.TransfersTo.of_silent (notReady : s.inReady = false) (notValid : s.outValid = false)
    (ins : t.inputsTaken = s.inputsTaken) (outs : t.outputs = s.outputs) : s.TransfersTo t :=
  ⟨by simp [notReady], fun _ => ins, by simp [notValid], fun _ => outs⟩

theorem State.TransfersTo.of_idle (idle : s.wait = .idle) (ins : t.inputsTaken = s.inputsTaken)
    (outs : t.outputs = s.outputs) : s.TransfersTo t :=
  .of_silent (State.inReady_of_idle idle) (State.outValid_of_idle idle) ins outs

theorem State.TransfersTo.inputTransfer (noRst : s.pins.rst = false) (notOutput : s.wait ≠ .output)
    (d : Nat) : s.TransfersTo (s.inputTransfer d).popHost := by
  have notValid := State.outValid_of_wait_ne notOutput
  obtain ⟨idle, eq⟩ | ⟨-, offer, eq⟩ | ⟨waiting, offer, eq⟩ := s.inputTransfer_cases d <;> rw [eq]
  · exact .of_silent (State.inReady_of_wait_ne idle) notValid rfl rfl
  · exact ⟨by simp [offer], fun _ => rfl, by simp [notValid], fun _ => rfl⟩
  · have inReady := State.inReady_of_waiting waiting noRst
    exact ⟨fun _ => rfl, fun notBoth => absurd ⟨inReady, offer⟩ notBoth, by simp [notValid],
      fun _ => rfl⟩

theorem State.TransfersTo.outputTransfer (noRst : s.pins.rst = false) (notInput : s.wait ≠ .input)
    {v : Word} (offered : s.offeredValue = some v) :
    s.TransfersTo (s.outputTransfer v).popHost := by
  have notReady := State.inReady_of_wait_ne notInput
  obtain ⟨idle, eq⟩ | ⟨-, notTaken, eq⟩ | ⟨waiting, taken, eq⟩ :=
    s.outputTransfer_cases v <;> rw [eq]
  · exact .of_silent notReady (State.outValid_of_wait_ne idle) rfl rfl
  · exact ⟨by simp [notReady], fun _ => rfl, by simp [notTaken], fun _ => rfl⟩
  · have outValid := State.outValid_iff.mpr ⟨waiting, noRst⟩
    have outData := (State.outData_of_outValid outValid).trans offered
    exact ⟨by simp [notReady], fun _ => rfl, fun _ => ⟨v, outData, rfl⟩,
      fun notBoth => absurd ⟨outValid, taken⟩ notBoth⟩

/-- A trapped IN or OUT does not wait: a wait has a resolved operand (42_io.md R83, R85). -/
theorem State.Inv.idle_of_trapped_inp (inv : s.Inv) {w : Word} {c : FaultCode} {v : Word}
    (stored : s.mem.read s.ip.toNat = some w) (decoded : decode w = .inp)
    (trapped : s.resolveDest = .trap c v) : s.wait = .idle := by
  refine State.wait_eq_idle (fun waiting => ?_) (inv.wait_ne_output stored (by simp [decoded]))
  obtain ⟨-, d, resolved⟩ := inv.decode_of_wait_input waiting stored
  rw [trapped] at resolved
  cases resolved

theorem State.Inv.idle_of_trapped_out (inv : s.Inv) {w : Word} {m1 : Mode} {c : FaultCode}
    {v : Word}
    (stored : s.mem.read s.ip.toNat = some w) (decoded : decode w = .out m1)
    (trapped : s.resolveSource m1 = .trap c v) : s.wait = .idle := by
  refine State.wait_eq_idle (inv.wait_ne_input stored (by simp [decoded])) fun waiting => ?_
  obtain ⟨m, v', decoded', resolved⟩ := inv.decode_of_wait_output waiting stored
  obtain rfl : m1 = m := Instr.out.inj (decoded.symm.trans decoded')
  rw [trapped] at resolved
  cases resolved

theorem State.Inv.exec_transfersTo (inv : s.Inv) {w : Word} (noRst : s.pins.rst = false)
    (stored : s.mem.read s.ip.toNat = some w) (executed : exec (decode w) s = .next t) :
    s.TransfersTo t.popHost := by
  have idle := inv.idle_of_decode stored
  generalize decoded : decode w = i at executed idle
  cases exec_effect executed with
  | addWrites | addFaults | mulWrites | mulFaults | halts | divRaises | jgeRaises | invalidRaises =>
    exact .of_idle (idle nofun nofun) rfl rfl
  | inTransfer d => exact .inputTransfer noRst (inv.wait_ne_output stored (by simp [decoded])) d
  | inFaults c v trapped => exact .of_idle (inv.idle_of_trapped_inp stored decoded trapped) rfl rfl
  | outTransfer m1 v resolved =>
    exact .outputTransfer noRst (inv.wait_ne_input stored (by simp [decoded]))
      (State.offeredValue_of_out stored decoded resolved)
  | outFaults m1 c v trapped =>
    exact .of_idle (inv.idle_of_trapped_out stored decoded trapped) rfl rfl

end

/-- Settles O42: only IN and OUT move a stream, and the other moves find both handshakes at 0. -/
theorem transfersFollowTheHandshake : Obligations.TransfersFollowTheHandshake := by
  intro s t inv released stepped
  cases step_move stepped with
  | resets rst =>
    exact State.TransfersTo.of_silent (State.inReady_of_rst rst) (State.outValid_of_rst rst) rfl rfl
  | releases _ inReset => exact absurd (inReset.symm.trans released) (by decide)
  | holds _ _ terminal =>
    have stopped : s.status ≠ .running := by rcases terminal with h | h <;> simp [h]
    exact State.TransfersTo.of_idle (inv.wait_eq_idle stopped) rfl rfl
  | ends _ _ _ _ boundary => exact State.TransfersTo.of_idle (inv.idle_at_boundary boundary) rfl rfl
  | runs noRst _ _ _ _ w u stored executed => exact inv.exec_transfersTo noRst stored executed

/-! ### Waits that are not answered -/

section

variable {s : State} (inv : s.Inv) (noRst : s.pins.rst = false)

include inv noRst

/-- A waiting core steps by the instruction it waits for (10_state.md R21, log 7). -/
theorem State.Inv.ready_of_waits (waits : s.wait ≠ .idle) :
    s.ready ∧ s.ip.toNat < s.msize.toNat := by
  obtain ⟨running, released, legal, inside⟩ := inv.waitRunning waits
  exact ⟨⟨running, released, legal, noRst⟩, inside⟩

theorem State.Inv.step_of_unanswered_input (waiting : s.wait = .input)
    (offer : s.pins.inValid = false) : step s = .next s.popHost := by
  obtain ⟨ready, inside⟩ := inv.ready_of_waits noRst (by simp [waiting])
  obtain ⟨w, d, stored, decoded, resolved⟩ := inv.waitInput waiting
  rw [step_of_instruction ready inside stored, decoded, exec_inp, resolved, Resolved.run_ok,
    State.inputTransfer_of_no_offer waiting offer, mapNext_next]

theorem State.Inv.step_of_unanswered_output (waiting : s.wait = .output)
    (notReady : s.pins.outReady = false) : step s = .next s.popHost := by
  obtain ⟨ready, inside⟩ := inv.ready_of_waits noRst (by simp [waiting])
  obtain ⟨w, m1, v, stored, decoded, resolved⟩ := inv.waitOutput waiting
  rw [step_of_instruction ready inside stored, decoded, exec_out, resolved, Resolved.run_ok,
    State.outputTransfer_of_not_ready waiting notReady, mapNext_next]

end

/-- Settles O43: the unaccepted step changes nothing, and a waiting OUT has a value. -/
theorem offeredOutputIsStable : Obligations.OfferedOutputIsStable := by
  intro s t inv valid notReady stepped
  obtain ⟨waiting, noRst⟩ := State.outValid_iff.mp valid
  obtain ⟨w, m1, v, stored, decoded, resolved⟩ := inv.waitOutput waiting
  have offered := State.offeredValue_of_out stored decoded resolved
  have data := State.outData_of_outValid valid
  rw [inv.step_of_unanswered_output noRst waiting notReady] at stepped
  cases stepped
  exact ⟨waiting, rfl, data, by rw [data, offered, Option.isSome_some]⟩

/-- What holds of everything the host drives, and of a quiet host, holds of what it drives now (log
5). -/
theorem State.pins_of_forall {s : State} {P : Pins → Prop} (all : ∀ p ∈ s.host, P p)
    (quiet : P Pins.quiet) : P s.pins := by
  cases h : s.host with
  | nil =>
    rw [State.pins_nil h]
    exact quiet
  | cons p ps =>
    rw [State.pins_cons h]
    exact all p (by simp [h])

/-- A core that does nothing but let the host go on does so for ever. -/
theorem steps_of_stutter {P : State → Prop}
    (stutters : ∀ s, P s → step s = .next s.popHost ∧ P s.popHost) (n : Nat) {s : State}
    (start : P s) :
    steps n s = .next { s with host := s.host.drop n } := by
  induction n generalizing s with
  | zero => rfl
  | succ n ih =>
    obtain ⟨stepped, again⟩ := stutters s start
    rw [steps_succ_of_step stepped, ih again, State.popHost_host, List.drop_tail]
    rfl

/-- An IN waits, in the invariant, for a host that neither resets nor offers. -/
def State.StarvedInput (s : State) : Prop :=
  s.Inv ∧ s.wait = .input ∧ ∀ p ∈ s.host, p.rst = false ∧ p.inValid = false

/-- An OUT waits, in the invariant, for a host that neither resets nor accepts. -/
def State.StarvedOutput (s : State) : Prop :=
  s.Inv ∧ s.wait = .output ∧ ∀ p ∈ s.host, p.rst = false ∧ p.outReady = false

theorem State.StarvedInput.stutters (s : State) (starved : s.StarvedInput) :
    step s = .next s.popHost ∧ s.popHost.StarvedInput := by
  obtain ⟨inv, waiting, host⟩ := starved
  obtain ⟨noRst, offer⟩ := State.pins_of_forall host ⟨rfl, rfl⟩
  exact ⟨inv.step_of_unanswered_input noRst waiting offer, inv.popHost, waiting,
    fun p later => host p (List.mem_of_mem_tail later)⟩

theorem State.StarvedOutput.stutters (s : State) (starved : s.StarvedOutput) :
    step s = .next s.popHost ∧ s.popHost.StarvedOutput := by
  obtain ⟨inv, waiting, host⟩ := starved
  obtain ⟨noRst, notReady⟩ := State.pins_of_forall host ⟨rfl, rfl⟩
  exact ⟨inv.step_of_unanswered_output noRst waiting notReady, inv.popHost, waiting,
    fun p later => host p (List.mem_of_mem_tail later)⟩

/-- Settles O59: an unanswered wait is a stutter, and stays one. -/
theorem unansweredWaitNeverEnds : Obligations.UnansweredWaitNeverEnds := by
  intro s n inv noReset
  refine ⟨fun waiting offers => ⟨?_, (inv.waitRunning (by simp [waiting])).1⟩,
    fun waiting readies => ⟨?_, (inv.waitRunning (by simp [waiting])).1⟩⟩
  · exact steps_of_stutter State.StarvedInput.stutters n
      ⟨inv, waiting, fun p driven => ⟨noReset p driven, offers p driven⟩⟩
  · exact steps_of_stutter State.StarvedOutput.stutters n
      ⟨inv, waiting, fun p driven => ⟨noReset p driven, readies p driven⟩⟩

end Sys2Proof.Machine
end

section
/-! Runs that end (70_reset_and_hazards.md R115, R119): in a loaded memory no instruction is
refused, and each step of a core that is not kept waiting lowers a rank. -/

namespace Sys2Proof.Machine

/-! ### A loaded memory refuses no read -/

theorem Resolved.run_next_of_ne_refuse {α : Type} {r : Resolved α}
    (resolved : ∀ why, r ≠ .refuse why)
    (s : State) (k : α → State) : ∃ t, (r.run s fun a => .next (k a)) = .next t := by
  cases r with
  | ok a => exact ⟨_, rfl⟩
  | trap c v => exact ⟨_, rfl⟩
  | refuse why => exact absurd rfl (resolved why)

section

variable {s : State} (loaded : s.fullyLoaded)

include loaded

theorem State.fullyLoaded.cell_ne_refuse {a : Nat} (below : a < s.msize.toNat) (why : Refusal) :
    s.cell a ≠ .refuse why := by
  obtain ⟨v, stored⟩ := Option.isSome_iff_exists.mp (loaded a below)
  rw [State.cell_eq_ok.mpr stored]
  nofun

theorem State.fullyLoaded.operandWord_ne_refuse (k : Nat) (why : Refusal) :
    s.operandWord k ≠ .refuse why := by
  rw [State.operandWord]
  split
  · exact loaded.cell_ne_refuse ‹_› why
  · nofun

theorem State.fullyLoaded.dereference_ne_refuse (raw : Word) (why : Refusal) :
    s.dereference raw ≠ .refuse why := by
  rw [State.dereference]
  split
  · exact loaded.cell_ne_refuse ((s.valid_iff raw).mp ‹_›).1 why
  · nofun

theorem State.fullyLoaded.readOperand_ne_refuse (k : Nat) (m : Mode) (why : Refusal) :
    s.readOperand k m ≠ .refuse why := by
  intro refused
  obtain word | ⟨raw, -, value⟩ := Resolved.bind_eq_refuse.mp refused
  · exact loaded.operandWord_ne_refuse k why word
  · cases m with
    | position => exact loaded.dereference_ne_refuse raw why value
    | immediate => cases value
    | undefined d => cases value

theorem State.fullyLoaded.writeOperand_ne_refuse (k : Nat) (why : Refusal) :
    s.writeOperand k ≠ .refuse why := by
  intro refused
  obtain word | ⟨raw, -, address⟩ := Resolved.bind_eq_refuse.mp refused
  · exact loaded.operandWord_ne_refuse k why word
  · split at address <;> cases address

theorem State.fullyLoaded.resolveBinary_ne_refuse (m1 m2 : Mode) (why : Refusal) :
    s.resolveBinary m1 m2 ≠ .refuse why := by
  simp [State.resolveBinary, Resolved.bind_eq_refuse, checkMode_ne_refuse,
    loaded.readOperand_ne_refuse, loaded.writeOperand_ne_refuse]

theorem State.fullyLoaded.resolveSource_ne_refuse (m1 : Mode) (why : Refusal) :
    s.resolveSource m1 ≠ .refuse why := by
  simp [State.resolveSource, Resolved.bind_eq_refuse, checkMode_ne_refuse,
    loaded.readOperand_ne_refuse]

theorem State.fullyLoaded.exec_next (i : Instr) : ∃ t, exec i s = .next t := by
  cases i with
  | add m1 m2 => exact Resolved.run_next_of_ne_refuse (loaded.resolveBinary_ne_refuse m1 m2) s _
  | mul m1 m2 => exact Resolved.run_next_of_ne_refuse (loaded.resolveBinary_ne_refuse m1 m2) s _
  | inp => exact Resolved.run_next_of_ne_refuse (loaded.writeOperand_ne_refuse 1) s _
  | out m1 => exact Resolved.run_next_of_ne_refuse (loaded.resolveSource_ne_refuse m1) s _
  | halt => exact ⟨_, exec_halt s⟩
  | div | jge | invalid => exact ⟨_, exec_of_valid_eq_false rfl s⟩

end

/-! ### A loaded memory stays loaded -/

theorem Memory.isSome_read_write {m : Memory} {a : Nat} (loaded : (m.read a).isSome = true)
    (d : Nat)
    (v : Word) : ((m.write d v).read a).isSome = true := by
  rw [Memory.read_write]
  split
  · rfl
  · exact loaded

theorem exec_isSome_read {i : Instr} {s t : State} (executed : exec i s = .next t) {a : Nat}
    (loaded : (s.mem.read a).isSome = true) : (t.mem.read a).isSome = true := by
  cases exec_effect executed with
  | addWrites m1 m2 v1 v2 d | mulWrites m1 m2 v1 v2 d => exact Memory.isSome_read_write loaded d _
  | inTransfer d =>
    obtain ⟨-, eq⟩ | ⟨-, -, eq⟩ | ⟨-, -, eq⟩ := s.inputTransfer_cases d <;> rw [eq]
    · exact loaded
    · exact loaded
    · exact Memory.isSome_read_write loaded d _
  | outTransfer m1 v => rwa [State.outputTransfer_mem]
  | addFaults | mulFaults | inFaults | outFaults | halts | divRaises | jgeRaises | invalidRaises =>
    exact loaded

theorem State.fullyLoaded.of_exec {i : Instr} {s t : State} (loaded : s.fullyLoaded)
    (executed : exec i s = .next t) : t.fullyLoaded := by
  obtain ⟨size, -, -⟩ := exec_frame executed
  exact fun a below => exec_isSome_read executed (loaded a (size ▸ below))

/-! ### The rank of a running core -/

/-- The host does not answer the wait of the core now (42_io.md R82, R85). -/
def State.Stalls (s : State) : Prop :=
  (s.wait = .input ∧ s.pins.inValid = false) ∨ (s.wait = .output ∧ s.pins.outReady = false)

/-- An upper bound of the steps to the end: a transfer takes two steps and two cells (log 7). -/
def State.rank (s : State) : Nat := s.msize.toNat - s.ip.toNat + if s.wait = .idle then 1 else 0

section

variable {s : State}

theorem State.rank_of_idle (idle : s.wait = .idle) :
    s.rank = s.msize.toNat - s.ip.toNat + 1 := by
  rw [State.rank, if_pos idle]

theorem State.rank_of_waiting (waits : s.wait ≠ .idle) : s.rank = s.msize.toNat - s.ip.toNat := by
  rw [State.rank, if_neg waits]
  rfl

theorem State.rank_le : s.rank ≤ s.msize.toNat + 1 := by
  rw [State.rank]
  split <;> omega

/-- The transfer of IN: it begins to wait or completes, each with a lower rank, or it stalls. -/
theorem State.rank_inputTransfer_lt (legal : s.sizeLegal = true)
    (upper : s.ip.toNat + 2 ≤ s.msize.toNat) (notOutput : s.wait ≠ .output) (answered : ¬s.Stalls)
    (d : Nat) : (s.inputTransfer d).rank < s.rank := by
  have ip := State.inputTransfer_ip_toNat legal upper d
  obtain ⟨notInput, eq⟩ | ⟨waiting, offer, -⟩ | ⟨waiting, offer, eq⟩ := s.inputTransfer_cases d
  · rw [State.rank_of_idle (State.wait_eq_idle notInput notOutput),
      State.rank_of_waiting (by simp [eq]), State.inputTransfer_msize, ip]
    omega
  · exact absurd (.inl ⟨waiting, offer⟩) answered
  · rw [State.rank_of_waiting (s := s) (by simp [waiting]), State.rank_of_idle (by simp [eq]),
      State.inputTransfer_msize, ip, if_pos ⟨waiting, offer⟩]
    omega

/-- The transfer of OUT: it begins to wait or completes, each with a lower rank, or it stalls. -/
theorem State.rank_outputTransfer_lt (legal : s.sizeLegal = true)
    (upper : s.ip.toNat + 2 ≤ s.msize.toNat) (notInput : s.wait ≠ .input) (answered : ¬s.Stalls)
    (v : Word) : (s.outputTransfer v).rank < s.rank := by
  have ip := State.outputTransfer_ip_toNat legal upper v
  obtain ⟨notOutput, eq⟩ | ⟨waiting, notReady, -⟩ | ⟨waiting, taken, eq⟩ := s.outputTransfer_cases v
  · rw [State.rank_of_idle (State.wait_eq_idle notInput notOutput),
      State.rank_of_waiting (by simp [eq]), State.outputTransfer_msize, ip]
    omega
  · exact absurd (.inr ⟨waiting, notReady⟩) answered
  · rw [State.rank_of_waiting (s := s) (by simp [waiting]), State.rank_of_idle (by simp [eq]),
      State.outputTransfer_msize, ip, if_pos ⟨waiting, taken⟩]
    omega

theorem State.Inv.rank_lt_of_exec {t : State} {w : Word} (inv : s.Inv) (legal : s.sizeLegal = true)
    (stored : s.mem.read s.ip.toNat = some w) (answered : ¬s.Stalls)
    (executed : Machine.exec (decode w) s = .next t) (goesOn : t.status = .running) :
    t.rank < s.rank := by
  generalize decoded : decode w = i at executed
  cases exec_effect executed with
  | addWrites m1 m2 v1 v2 d resolved | mulWrites m1 m2 v1 v2 d resolved =>
    have upper : s.ip.toNat + 4 ≤ s.msize.toNat := State.resolveBinary_inside resolved
    rw [State.rank, State.rank, State.store_advance_ip_toNat legal upper]
    refine Nat.add_lt_add_right ?_ _
    rw [State.advance_msize, State.store_msize]
    omega
  | inTransfer d resolved =>
    exact State.rank_inputTransfer_lt legal (State.writeOperand_inside resolved)
      (inv.wait_ne_output stored (by simp [decoded])) answered d
  | outTransfer m1 v resolved =>
    exact State.rank_outputTransfer_lt legal (State.resolveSource_inside resolved)
      (inv.wait_ne_input stored (by simp [decoded])) answered v
  | addFaults | mulFaults | inFaults | outFaults | halts | divRaises | jgeRaises | invalidRaises =>
    cases goesOn

end

/-! ### Runs -/

/-- A Running core in the invariant, with everything loaded and no reset to come. -/
structure State.Live (s : State) : Prop where
  inv : s.Inv
  running : s.status = .running
  released : s.inReset = false
  legal : s.sizeLegal = true
  loaded : s.fullyLoaded
  noReset : s.noReset

section

variable {s : State}

theorem State.Live.ready (live : s.Live) : s.ready :=
  ⟨live.running, live.released, live.legal,
    State.pins_of_forall (P := fun p => p.rst = false) live.noReset rfl⟩

/-- A live core always has a step to go: only at `ip < N` does it wait (10_state.md R21). -/
theorem State.Live.rank_pos (live : s.Live) : 0 < s.rank := by
  by_cases idle : s.wait = .idle
  · rw [State.rank_of_idle idle]
    omega
  · obtain ⟨-, -, -, inside⟩ := live.inv.waitRunning idle
    rw [State.rank_of_waiting idle]
    omega

theorem State.Live.of_exec {t : State} {w : Word} (live : s.Live)
    (inside : s.ip.toNat < s.msize.toNat) (stored : s.mem.read s.ip.toNat = some w)
    (executed : Machine.exec (decode w) s = .next t) (goesOn : t.status = .running) :
    t.popHost.Live := by
  obtain ⟨size, flag, host⟩ := exec_frame executed
  have loaded := live.loaded.of_exec executed
  exact
    { inv := (live.inv.of_exec live.running live.released live.legal inside stored executed).popHost
      running := goesOn
      released := flag.trans live.released
      legal := by
        have legal := live.legal
        rwa [State.sizeLegal, ← size] at legal
      loaded := loaded
      noReset := fun p driven => live.noReset p (host ▸ List.mem_of_mem_tail driven) }

/-- A live core that is not kept waiting ends with its next step, or goes on with a lower rank. -/
theorem State.Live.progress (live : s.Live) (answered : ¬s.Stalls) :
    ∃ t, step s = .next t ∧ (t.runOver = true ∨ (t.Live ∧ t.rank < s.rank)) := by
  by_cases inside : s.ip.toNat < s.msize.toNat
  · obtain ⟨w, stored⟩ := Option.isSome_iff_exists.mp (live.loaded _ inside)
    obtain ⟨t, executed⟩ := live.loaded.exec_next (decode w)
    refine ⟨t.popHost, ?_, ?_⟩
    · rw [step_of_instruction live.ready inside stored, executed, mapNext_next]
    · obtain same | ⟨-, rfl⟩ | faulted := exec_status executed
      · have goesOn := same.trans live.running
        have lower := live.inv.rank_lt_of_exec live.legal stored answered executed goesOn
        exact .inr ⟨live.of_exec inside stored executed goesOn, lower⟩
      · exact .inl rfl
      · exact .inl (by simp [State.runOver, faulted])
  · exact ⟨_, step_of_boundary live.ready (Nat.le_of_not_lt inside), .inl rfl⟩

/-- A live core that is never kept waiting ends within as many steps as its rank. -/
theorem State.Live.ends {n : Nat} (live : s.Live) (bound : s.rank ≤ n)
    (answered : ∀ k t, k < n → steps k s = .next t → ¬t.Stalls) :
    ∃ k t, k ≤ n ∧ steps k s = .next t ∧ t.runOver = true := by
  induction n generalizing s with
  | zero => exact absurd live.rank_pos (by omega)
  | succ n ih =>
    obtain ⟨t, stepped, ended | ⟨live', lower⟩⟩ := live.progress (answered 0 s (by omega) rfl)
    · exact ⟨1, t, by omega, steps_succ_of_step stepped 0, ended⟩
    · obtain ⟨k, u, within, reached, ended⟩ := ih live' (by omega) fun k u before reached =>
        answered (k + 1) u (by omega) ((steps_succ_of_step stepped k).trans reached)
      exact ⟨k + 1, u, by omega, (steps_succ_of_step stepped k).trans reached, ended⟩

end

/-- Settles O57: a core that does not wait does not stall. -/
theorem runWithoutWaitEnds : Obligations.RunWithoutWaitEnds := by
  intro s inv running released legal loaded noReset idle
  refine State.Live.ends ⟨inv, running, released, legal, loaded, noReset⟩ State.rank_le
    fun k t before reached => ?_
  simp [State.Stalls, idle k t before.le reached]

/-! ### An eager host -/

theorem step_host {s t : State} (stepped : step s = .next t) : t.host = s.host.tail := by
  cases step_move stepped with
  | resets | releases | holds | ends => rfl
  | runs _ _ _ _ _ w u _ executed =>
    obtain ⟨-, -, host⟩ := exec_frame executed
    rw [State.popHost_host, host]

/-- Each step takes one entry of the host list (log 5). -/
theorem steps_host {k : Nat} {s t : State} (reached : steps k s = .next t) :
    t.host = s.host.drop k := by
  induction k generalizing s with
  | zero =>
    cases reached
    rfl
  | succ k ih =>
    rw [steps] at reached
    split at reached
    · rename_i u stepped
      rw [ih reached, step_host stepped, List.drop_tail]
    · cases reached
    · cases reached

theorem State.pins_mem_host {s : State} (driven : s.host ≠ []) : s.pins ∈ s.host := by
  cases h : s.host with
  | nil => exact absurd h driven
  | cons p ps => simp [State.pins_cons h]

/-- An eager host keeps no core waiting, as long as its list lasts (R119). -/
theorem State.eagerFor.not_stalls {n k : Nat} {s t : State} (eager : s.eagerFor n) (before : k < n)
    (reached : steps k s = .next t) : ¬t.Stalls := by
  obtain ⟨lasts, answers⟩ := eager
  have host := steps_host reached
  have driven : t.host ≠ [] := by
    rw [host]
    exact List.ne_nil_of_length_pos (by rw [List.length_drop]; omega)
  have pin : t.pins ∈ s.host := List.mem_of_mem_drop (host ▸ State.pins_mem_host driven)
  obtain ⟨offers, accepts⟩ := answers t.pins pin
  simp [State.Stalls, offers, accepts]

/-- Settles O58: an eager host never lets the core stall. -/
theorem runWithEagerHostEnds : Obligations.RunWithEagerHostEnds := by
  intro s inv running released legal loaded noReset eager
  exact State.Live.ends ⟨inv, running, released, legal, loaded, noReset⟩ State.rank_le
    fun k t before reached => eager.not_stalls before reached

end Sys2Proof.Machine
end
